-- ==== Sys2Proof/Word.lean ====
section
/-! DEFINITION. The words that cross the unit's command port, and the byte of its buffer.
Bit 0 is the least significant bit of each (R6). -/

namespace Sys2Proof

/-- A byte of the input buffer, and the operand field of a command (R10, R26, R40). -/
abbrev Byte := BitVec 8

/-- A command word: "Every command is one 16-bit word in a single format" (R39). -/
abbrev CmdWord := BitVec 16

/-- A response word: "Every command returns one 32-bit response word" (R46). -/
abbrev RespWord := BitVec 32

end Sys2Proof
end

