-- ==== Sys2Proof/Syntax.lean ====
section
/-! DEFINITION. The six commands of rule R41, one constructor per row of the opcode table. -/

namespace Sys2Proof

/-- A command the unit knows. The operand is the byte of the word's imm field (R40); which operands are
legal is said by `Instr.wf` (the encoding) and by the meaning of the command (the execution). -/
inductive Instr where
  /-- RST, reset the unit (R50). -/
  | rst
  /-- CFG w, configure the Block Width w in bits and start a computation (R51). Every byte is a legal
  encoding; the meaning raises ConfigurationError on all but 8, 16 and 32 (R44). -/
  | cfg (w : Byte)
  /-- PUSH b, append the byte b to the Input Record (R52). -/
  | push (b : Byte)
  /-- STEP, add the next block (R67). -/
  | step
  /-- RUN, compute the checksum of the whole record (R68). -/
  | run
  /-- GET s, read the value that selector s names (R76). -/
  | get (s : Byte)
  deriving DecidableEq, Repr

end Sys2Proof
end

