-- ==== Sys2Proof/WellFormed.lean ====
section
/-! DEFINITION. Which terms of `Instr` are commands of the unit. -/

namespace Sys2Proof

/-- The one check an operand field must pass to be a command at all: a GET's selector is 0 to 3, since
"A word 0x0604 to 0x06FF is not GET: it decodes as illegal" (R76, R42). CFG's operand is NOT checked
here: "all 256 operand values decode as CFG" (R42); PUSH takes any byte. -/
def Instr.wf : Instr → Bool
  | .rst => true
  | .cfg _ => true
  | .push _ => true
  | .step => true
  | .run => true
  | .get s => decide (s.toNat ≤ 3)

end Sys2Proof
end

