-- ==== Sys2Proof/Decode.lean ====
section
/-! DEFINITION. The decoder (R39 to R45), and after it the encoder, both from the table of rule R41. -/

namespace Sys2Proof

/-! ### The fields of format C (R39) -/

/-- Bits 15:8, the opcode. -/
def opField (cw : CmdWord) : Byte := cw.extractLsb' 8 8

/-- Bits 7:0, the operand: "never sign-extended, scaled or shifted" (R40). -/
def immField (cw : CmdWord) : Byte := cw.extractLsb' 0 8

/-! ### The decoder -/

/-- Why a word is in the ILLEGAL class: the three kinds of rule R43. -/
inductive Illegal where
  /-- op = 0x00, or op = 0x07 to 0xFF. -/
  | unassignedOpcode (op : Byte)
  /-- op = 0x01, 0x04 or 0x05 with imm not 0. -/
  | operandNotZero (op imm : Byte)
  /-- op = 0x06 with imm = 4 to 255. -/
  | selectorOutOfRange (s : Byte)
  deriving DecidableEq, Repr

/-- Decoding, a total function on the 65536 words (R42, classes (1) to (7)). -/
def decode (cw : CmdWord) : Except Illegal Instr :=
  let op := opField cw
  let imm := immField cw
  if op = 0x01 then (if imm = 0 then .ok .rst else .error (.operandNotZero op imm))
  else if op = 0x02 then .ok (.cfg imm)
  else if op = 0x03 then .ok (.push imm)
  else if op = 0x04 then (if imm = 0 then .ok .step else .error (.operandNotZero op imm))
  else if op = 0x05 then (if imm = 0 then .ok .run else .error (.operandNotZero op imm))
  else if op = 0x06 then (if imm.toNat ≤ 3 then .ok (.get imm) else .error (.selectorOutOfRange imm))
  else .error (.unassignedOpcode op)

/-! ### The encoder -/

/-- The opcode of a command (R41). -/
def opcodeOf : Instr → Byte
  | .rst => 0x01
  | .cfg _ => 0x02
  | .push _ => 0x03
  | .step => 0x04
  | .run => 0x05
  | .get _ => 0x06

/-- The operand field of a command: 0 where it has no operand (R40). -/
def operandOf : Instr → Byte
  | .rst => 0
  | .cfg w => w
  | .push b => b
  | .step => 0
  | .run => 0
  | .get s => s

/-- The word of a command: op in bits 15:8, imm in bits 7:0 (R39). -/
def encode (i : Instr) : CmdWord := opcodeOf i ++ operandOf i

/-! ### The opcode map as rows -/

/-- A row of rule R41: a word matches it when `(word AND mask) = match`. -/
structure OpRow where
  mnemonic : String
  pattern : CmdWord
  mask : CmdWord
  deriving DecidableEq, Repr

/-- A word matches a row (R41). -/
def OpRow.matches (r : OpRow) (cw : CmdWord) : Bool := cw &&& r.mask == r.pattern

/-- The row of a command, as rule R41 numbers it. -/
def rowOf : Instr → OpRow
  | .rst => ⟨"RST", 0x0100, 0xFFFF⟩
  | .cfg _ => ⟨"CFG", 0x0200, 0xFF00⟩
  | .push _ => ⟨"PUSH", 0x0300, 0xFF00⟩
  | .step => ⟨"STEP", 0x0400, 0xFFFF⟩
  | .run => ⟨"RUN", 0x0500, 0xFFFF⟩
  | .get _ => ⟨"GET", 0x0600, 0xFF00⟩

/-- The six rows of rule R41. -/
def opRows : List OpRow :=
  [rowOf .rst, rowOf (.cfg 0), rowOf (.push 0), rowOf .step, rowOf .run, rowOf (.get 0)]

/-! ### The table's numbering -/

/-- The command word whose low `nbits` bits are those of `w`, every bit above zero. Bit 0 of the table's
number is bit 0 of the word (R6, R39): there is one word and no byte order. -/
def tableWord (nbits w : Nat) : CmdWord := BitVec.ofNat 16 (w % 2 ^ nbits)

/-- What the decoder reads from an instruction numbered as the opcode table numbers it. -/
def decodeTableWord (nbits w : Nat) : Option Instr := (decode (tableWord nbits w)).toOption

end Sys2Proof
end

