-- ==== Sys2Proof/Config.lean ====
section
/-! DEFINITION. The parameters of the unit, rule R4: what is fixed, and the range and default of the one OPEN row. -/

namespace Sys2Proof.Config

/-- Bits per byte (R4, "each byte contributes exactly 8 bits"). -/
def bitsPerByte : Nat := 8

/-- The default of the OPEN parameter MAXBYTES (R4, decision D8). MAXBYTES itself is the field
`State.maxBytes`, so that every statement about every state is a statement about every value of it
(notes/assumptions/2.md); this number is only what `State.reset` puts there. -/
def defaultMaxBytes : Nat := 4096

/-- The legal values of MAXBYTES: "an integer with 1 <= MAXBYTES < 2^28" (R4). -/
abbrev legalMaxBytes (n : Nat) : Prop := 1 ≤ n ∧ n < 2 ^ 28

/-- FILLER, the byte a host pads with (R4, R97). The unit never uses it; the assembler's PADX and the
host's padding do. -/
def filler : Byte := 0x58

end Sys2Proof.Config
end

