-- ==== Sys2Proof/Machine/State.lean ====
section
/-! DEFINITION. The state of the unit (R9), what stops a step, and the state after hardware reset (R23). -/

namespace Sys2Proof.Machine

/-- A Block Width: "one of {8, 16, 32}" bits (R12, R4). -/
inductive BlockWidth where
  | w8
  | w16
  | w32
  deriving DecidableEq, Repr

/-- The errors the unit can raise (R80): codes 1, 3, 4 and 5. Code 2 "is never raised" (R85), and "ERR never
holds" 6 and 7, so the latch has no value for them (93_implementation_defined.md section 2: "a model's
ERR type need not have them"). -/
inductive ErrorKind where
  /-- Code 1 (R81): raised by CFG, STEP and RUN. -/
  | configurationError
  /-- Code 3 (R82): raised by STEP and RUN. -/
  | invalidInputLength
  /-- Code 4 (R83): raised by PUSH. -/
  | bufferOverflow
  /-- Code 5 (R84): raised by every word of the ILLEGAL class. -/
  | illegalCommand
  deriving DecidableEq, Repr

/-- The bytes of BUF that hold a value, as (index, byte) pairs, indices strictly rising. An index that is
not listed holds no value: rule R96 leaves its content unspecified (notes/assumptions/1.md). -/
abbrev Memory := List Host.Cell

/-- The state: the seven items of rule R9 (`buf` to `err`), and three fields of the MODEL's own, which are
no state of the unit: the parameter MAXBYTES (R4) and the two ends of the command port (R5, R46). -/
structure State where
  /-- BUF, the input buffer (R10). -/
  buf : Memory
  /-- LEN, the number of bytes loaded (R11). A count that is never wrapped: `StateInv.lenBound` bounds it
  (DESIGN CHOICE, safe: notes/assumptions/7.md). -/
  len : Nat
  /-- W, the configured Block Width (R12): `none` is the register value 0, "no width has been configured";
  its 6-bit content is `widthField` (DESIGN CHOICE, safe: notes/assumptions/8.md). -/
  w : Option BlockWidth
  /-- ACC, the accumulator, 32 bits whatever the width (R13). -/
  acc : BitVec 32
  /-- CY, the end-around carry latch (R14). -/
  cy : Bool
  /-- BLK, the index of the next block to add (R15). A count that is never wrapped: `StateInv.blkBound`
  (DESIGN CHOICE, safe: notes/assumptions/7.md). -/
  blk : Nat
  /-- ERR, the error latch (R16): `none` is the register value 0; its 3-bit content is
  `errField` (DESIGN CHOICE, safe: notes/assumptions/8.md). -/
  err : Option ErrorKind
  /-- MODEL: the OPEN parameter MAXBYTES (R4). No command reads it but PUSH and the address check, and
  none changes it (DESIGN CHOICE: notes/assumptions/2.md). -/
  maxBytes : Nat
  /-- MODEL: the command words the host has issued and the unit has not yet taken, oldest first (R5;
  DESIGN CHOICE, safe: notes/assumptions/3.md). -/
  port : List CmdWord
  /-- MODEL: the response to the last command taken (R46); `none` until a first command is taken
  (DESIGN CHOICE, safe: notes/assumptions/4.md). -/
  resp : Option RespWord
  deriving DecidableEq, Repr

/-- What stops a step. Both are SAFE, and no state that meets `StateInv` raises either: the unit itself has no
behaviour that stops (R49: "a total, deterministic function"; notes/assumptions/6.md). -/
inductive Fault where
  /-- An access to an index of BUF at or above MAXBYTES, which does not exist (R32: "indices 0 to MAXBYTES-1 are
  data bytes; there is nothing else"). Raised by PUSH, STEP and RUN, only from a state with LEN > MAXBYTES
  or BLK beyond the record, which no run reaches. Safe: the model stops. -/
  | outsideBuffer
  /-- A read of an index of BUF that holds no value (R10, R96: its content is unspecified). Raised by STEP and
  RUN, only from a state whose record was never pushed, which no run reaches. Safe: the model stops. -/
  | unwrittenByte
  deriving DecidableEq, Repr

/-- Why a command has no meaning in the model. -/
inductive Refusal where
  /-- An instruction of the table without a meaning, by its mnemonic: raised by no arm of `exec`, since
  every command has its meaning. Safe: the model stops. -/
  | notModelled (mnemonic : String)
  deriving DecidableEq, Repr

/-- What a command or a step answers. -/
abbrev Out := Host.Outcome State Fault Refusal

/-- The state after hardware reset (R23, R94): LEN, W, ACC, CY, BLK and ERR zero, no byte of BUF with a
value (R96), MAXBYTES at its default (R4), no command issued and no response returned (R95). -/
def State.reset : State where
  buf := []
  len := 0
  w := none
  acc := 0
  cy := false
  blk := 0
  err := none
  maxBytes := Config.defaultMaxBytes
  port := []
  resp := none

end Sys2Proof.Machine
end

