-- ==== Sys2Proof/Machine/Flags.lean ====
section
/-! DEFINITION. The end-around-carry adder, in the word form the machine uses (R64) and in the source's
bit-serial form (R65), and the carry it hands from block to block. No carry is folded back (R70;
notes/assumptions/10.md). Every value is an exact natural
number (R7, R72). -/

namespace Sys2Proof.Machine

/-- AddEAC(acc, b, cin, W) of rule R64: the sum t = acc + b + cin, its low W bits, and its bit W. -/
def addEAC (w acc b : Nat) (cin : Bool) : Nat × Bool :=
  let t := acc + b + cin.toNat
  (t % 2 ^ w, decide (t / 2 ^ w = 1))

/-- The carry of a full adder: two of its three inputs are set (R65). -/
def majority (a b c : Bool) : Bool := (a && b) || (a && c) || (b && c)

/-- c(i) of the bit-serial adder (R65): c(0) is the carry in, c(i+1) the carry out of bit i. -/
def rippleCarry (acc b : Nat) (cin : Bool) : Nat → Bool
  | 0 => cin
  | i + 1 => majority (acc.testBit i) (b.testBit i) (rippleCarry acc b cin i)

/-- acc'[i] of the bit-serial adder (R65). -/
def rippleSumBit (acc b : Nat) (cin : Bool) (i : Nat) : Bool :=
  ((acc.testBit i).xor (b.testBit i)).xor (rippleCarry acc b cin i)

/-- The bit-serial adder (R65): W full adders from bit 0 to bit W-1, and the carry out c(W). -/
def rippleAdd (w acc b : Nat) (cin : Bool) : Nat × Bool :=
  (((List.range w).map fun i => (rippleSumBit acc b cin i).toNat * 2 ^ i).sum, rippleCarry acc b cin w)

end Sys2Proof.Machine
end

