-- ==== Sys2Proof/Machine/Ops.lean ====
section
/-! DEFINITION. The named operations the meanings share: reading and writing BUF, the checks of an
access, raising an error, the error gate, the response, and taking the next command word. -/

namespace Sys2Proof.Machine

/-! ### BUF (R25 to R28) -/

/-- The canonical form of a memory: indices strictly rising. (An unlisted index holds no value, so no
entry can say what an unlisted index says.) -/
abbrev Memory.wf (m : Memory) : Prop := m.Pairwise (fun c d => c.1 < d.1)

/-- The byte an index holds, `none` where it holds no value. -/
def Memory.read : Memory → Nat → Option Byte
  | [], _ => none
  | (k, v) :: rest, a => if k = a then some v else Memory.read rest a

/-- `MemWrite(a, 1, b)` of rule R7: one byte, "the only write width". -/
def Memory.write : Memory → Nat → Byte → Memory
  | [], a, b => [(a, b)]
  | (k, v) :: rest, a, b =>
    if a < k then (a, b) :: (k, v) :: rest
    else if a = k then (a, b) :: rest
    else (k, v) :: Memory.write rest a b

/-- The byte of BUF at an index. The 0 for an index without a value is never used by a meaning: each asks
`checkRead` first. -/
def byteAt (s : State) (a : Nat) : Byte := (s.buf.read a).getD 0

/-- What stops a read of the `n` bytes from index `lo`, if anything: an index that does not exist (R32), or
one that holds no value (R10). DESIGN CHOICE, safe: notes/assumptions/6.md. -/
def checkRead (s : State) (lo n : Nat) : Option Fault :=
  if s.maxBytes < lo + n then some .outsideBuffer
  else if (List.range n).all (fun i => (s.buf.read (lo + i)).isSome) then none
  else some .unwrittenByte

/-- The index a PUSH stores to: "one byte at the current end of the record" (R27). -/
def pushAddr (s : State) : Nat := s.len

/-! ### The response (R46) -/

/-- The 3-bit content of ERR (R80): the code of the latched error, 0 for none. -/
def errField : Option ErrorKind → BitVec 3
  | none => 0
  | some .configurationError => 1
  | some .invalidInputLength => 3
  | some .bufferOverflow => 4
  | some .illegalCommand => 5

/-- `zext_32(ERR)`. -/
def errWord (e : Option ErrorKind) : RespWord := (errField e).setWidth 32

/-- Return a response word to the host. -/
def respond (r : RespWord) (s : State) : State := { s with resp := some r }

/-- Return `zext_32(ERR)`, ERR being the latch after the command: every command but GET does (R46). -/
def respondErr (s : State) : State := respond (errWord s.err) s

/-! ### Errors (R86 to R90) -/

/-- `raise E` (R86): "if ERR = 0 then ERR <- code(E). Nothing else changes". No state is saved, control
goes nowhere: this is all there is of taking an exception on this hardware. -/
def raiseError (e : ErrorKind) (s : State) : State :=
  match s.err with
  | none => { s with err := some e }
  | some _ => s

/-- A command that raises an error: "The command that raised the error has no other effect, its response
is zext_32(ERR) with the new code" (R86). -/
def refuseWith (e : ErrorKind) (s : State) : Out := .next (respondErr (raiseError e s))

/-- The gate (R87): while ERR is not 0 the command "changes nothing and returns zext_32(ERR)". -/
def gated (s : State) (o : Out) : Out :=
  match s.err with
  | none => o
  | some _ => .next (respondErr s)

/-- What a word of the ILLEGAL class does (R84, R49): the gate first, then IllegalCommand. -/
def execIllegal (s : State) : Out := gated s (refuseWith .illegalCommand s)

/-- Leaving the error state, and every computation (R23, R90): LEN, W, ACC, CY, BLK and ERR to zero, BUF
as it was. The return from an error on this hardware: nothing else clears ERR. -/
def clearAll (s : State) : State :=
  { s with len := 0, w := none, acc := 0, cy := false, blk := 0, err := none }

/-- Hardware reset (R94): "power-on or a reset input; its form is not specified". Whatever the state before,
the unit is left in the state of rule R23; its capacity is a parameter and stays. No step takes it: it comes
from outside the command port (notes/assumptions/11.md). -/
def hardwareReset (s : State) : State := { State.reset with maxBytes := s.maxBytes }

/-! ### The command port (R5) -/

/-- The next command word, and the state once the unit has taken it; `none` when the host has issued
none. -/
def takeCommand (s : State) : Option (CmdWord × State) :=
  match s.port with
  | [] => none
  | cw :: rest => some (cw, { s with port := rest })

/-- A step with no command to take: "After reset the unit is idle and waits for a command" (R95), and
"Nothing else changes the unit's state" (R5). DEDUCED, safe: notes/assumptions/5.md. -/
def idle (s : State) : Out := .next s

end Sys2Proof.Machine
end

