-- ==== Sys2Proof/Machine/Operands.lean ====
section
/-! DEFINITION. What the operands name and what the commands read: the width operand of CFG, the
selector of GET, the bit-picker and the block multiplexer over BUF (R53 to R61), and the derived views
DONE, NBLK and STATUS (R17, R18). -/

namespace Sys2Proof.Machine

/-! ### Widths (R12, R51) -/

/-- A Block Width in bits. -/
def BlockWidth.bits : BlockWidth → Nat
  | .w8 => 8
  | .w16 => 16
  | .w32 => 32

/-- W div 8, the bytes of a block. -/
def BlockWidth.bytes (w : BlockWidth) : Nat := w.bits / Config.bitsPerByte

/-- The Block Width an operand of CFG names: "w is one of 8, 16, 32" (R51), else none. -/
def widthOperand (w : Byte) : Option BlockWidth :=
  if w = 8 then some .w8 else if w = 16 then some .w16 else if w = 32 then some .w32 else none

/-- The 6-bit content of W (R12): 0, 8, 16 or 32. -/
def widthField : Option BlockWidth → BitVec 6
  | none => 0
  | some w => BitVec.ofNat 6 w.bits

/-! ### The Bit Sequence and the blocks (R53 to R61) -/

/-- The bit-picker (R54): `bit(p) = BUF[p div 8][7 - (p mod 8)]`, defined for p below 8 * LEN. -/
def bitAt (s : State) (p : Nat) : Bool := (byteAt s (p / 8)).getLsbD (7 - p % 8)

/-- The block multiplexer (R58): the W bits from position k * W, the first the most significant. -/
def blockAt (s : State) (w : BlockWidth) (k : Nat) : Nat :=
  ((List.range w.bits).map fun j => (bitAt s (k * w.bits + j)).toNat * 2 ^ (w.bits - 1 - j)).sum

/-- `MemRead(a, n) = BUF[a] ∥ ... ∥ BUF[a+n-1]` (R29): big-endian. Rule R59 says a block is one of these
(DEDUCED: notes/assumptions/12.md). -/
def memRead (s : State) (a : Nat) : Nat → Nat
  | 0 => 0
  | n + 1 => memRead s a n * 256 + (byteAt s (a + n)).toNat

/-- "8 * LEN is a multiple of W": the record is a whole number of blocks (R18, R30, R82). -/
def wholeBlocks (s : State) (w : BlockWidth) : Bool := 8 * s.len % w.bits == 0

/-- NBLK = 8 * LEN div W (R18). -/
def numBlocks (s : State) (w : BlockWidth) : Nat := 8 * s.len / w.bits

/-- "BLK * W = 8 * LEN": no block is left (R67, R18). -/
def allAdded (s : State) (w : BlockWidth) : Bool := s.blk * w.bits == 8 * s.len

/-- The accumulator and the carry after the first `n` blocks of the record, from a = 0 and c = 0 (R63, and
the loop of R68). -/
def sumBlocks (s : State) (w : BlockWidth) : Nat → Nat × Bool
  | 0 => (0, false)
  | n + 1 =>
    match sumBlocks s w n with
    | (a, c) => addEAC w.bits a (blockAt s w n) c

/-! ### Derived views (R17, R18) -/

/-- DONE (R18): "1 exactly when W is not 0 and BLK * W = 8 * LEN". -/
def done (s : State) : Bool :=
  match s.w with
  | none => false
  | some w => allAdded s w

/-- STATUS (R17): 31:14 zero, W in 13:8, 7:5 zero, DONE in 4, CY in 3, ERR in 2:0. -/
def statusWord (s : State) : RespWord :=
  0#18 ++ widthField s.w ++ 0#3 ++ BitVec.ofBool (done s) ++ BitVec.ofBool s.cy ++ errField s.err

/-! ### Selectors (R76) -/

/-- The four values GET reads. -/
inductive Selector where
  | sum
  | status
  | len
  | blk
  deriving DecidableEq, Repr

/-- The selector an operand of GET names, 0 to 3, else none. -/
def selectorOperand (s : Byte) : Option Selector :=
  if s = 0 then some .sum
  else if s = 1 then some .status
  else if s = 2 then some .len
  else if s = 3 then some .blk
  else none

/-- The value a selector reads (R76). -/
def readout (q : Selector) (s : State) : RespWord :=
  match q with
  | .sum => s.acc
  | .status => statusWord s
  | .len => BitVec.ofNat 32 s.len
  | .blk => BitVec.ofNat 32 s.blk

end Sys2Proof.Machine
end

