-- ==== Sys2Proof/Machine/Accumulate.lean ====
section
/-! DEFINITION. The commands of the Block Summer: STEP and RUN (42_accumulate.md). -/

namespace Sys2Proof.Machine

/-- STEP (R67): the checks in the order of rule R89, the loop's exit test, then one end-around-carry
addition of block BLK. -/
def execStep (s : State) : Out :=
  gated s <|
    match s.w with
    | none => refuseWith .configurationError s
    | some w =>
      if !wholeBlocks s w then refuseWith .invalidInputLength s
      else if allAdded s w then .next (respondErr s)
      else
        match checkRead s (s.blk * w.bytes) w.bytes with
        | some f => .fault f
        | none =>
          match addEAC w.bits (s.acc.toNat % 2 ^ w.bits) (blockAt s w s.blk) s.cy with
          | (a, c) => .next (respondErr { s with acc := BitVec.ofNat 32 a, cy := c, blk := s.blk + 1 })

/-- RUN (R68): the checks of STEP, then the whole sum from a = 0 and c = 0 over the NBLK blocks. It reads
exactly the bytes below LEN. -/
def execRun (s : State) : Out :=
  gated s <|
    match s.w with
    | none => refuseWith .configurationError s
    | some w =>
      if !wholeBlocks s w then refuseWith .invalidInputLength s
      else
        match checkRead s 0 s.len with
        | some f => .fault f
        | none =>
          match sumBlocks s w (numBlocks s w) with
          | (a, c) =>
            .next (respondErr { s with acc := BitVec.ofNat 32 a, cy := c, blk := numBlocks s w })

end Sys2Proof.Machine
end

