-- ==== Sys2Proof/Machine/ConfigLoad.lean ====
section
/-! DEFINITION. The commands that prepare a computation: RST, CFG and PUSH (40_config_and_load.md). -/

namespace Sys2Proof.Machine

/-- RST (R50): never gated; LEN, W, ACC, CY, BLK and ERR to zero, BUF unchanged, response 0. -/
def execRst (s : State) : Out := .next (respondErr (clearAll s))

/-- CFG w (R51): a legal width starts a computation at that width, any other raises ConfigurationError. -/
def execCfg (w : Byte) (s : State) : Out :=
  gated s <|
    match widthOperand w with
    | none => refuseWith .configurationError s
    | some bw => .next (respondErr { s with w := some bw, acc := 0, cy := false, blk := 0 })

/-- PUSH b (R52): append b at index LEN, or raise BufferOverflow when LEN = MAXBYTES. The address check
after it cannot fail while LEN <= MAXBYTES (`StateInv.lenBound`; notes/assumptions/6.md). -/
def execPush (b : Byte) (s : State) : Out :=
  gated s <|
    if s.len = s.maxBytes then refuseWith .bufferOverflow s
    else if s.maxBytes ≤ pushAddr s then .fault .outsideBuffer
    else .next (respondErr { s with buf := s.buf.write (pushAddr s) b, len := s.len + 1 })

end Sys2Proof.Machine
end

