-- ==== Sys2Proof/Machine/Readout.lean ====
section
/-! DEFINITION. The command that reads a value: GET (43_readout.md). -/

namespace Sys2Proof.Machine

/-- GET s (R76): never gated, changes no state, the response is the selected value. A selector above 3 is
no GET: "it raises IllegalCommand when ERR = 0 and is ignored when ERR is not 0" (R76), which is what the
illegal word that holds it does (DEDUCED, safe: notes/assumptions/9.md). -/
def execGet (s : Byte) (st : State) : Out :=
  match selectorOperand s with
  | some q => .next (respond (readout q st) st)
  | none => execIllegal st

end Sys2Proof.Machine
end

