-- ==== Sys2Proof/Machine/Dispatch.lean ====
section
/-! DEFINITION. The meaning of each command, one arm per constructor. -/

namespace Sys2Proof.Machine

def exec (i : Instr) (s : State) : Host.Outcome State Fault Refusal :=
  match i with
  | .rst => Sys2Proof.Machine.execRst s
  | .cfg w => Sys2Proof.Machine.execCfg w s
  | .push b => Sys2Proof.Machine.execPush b s
  | .step => Sys2Proof.Machine.execStep s
  | .run => Sys2Proof.Machine.execRun s
  | .get q => Sys2Proof.Machine.execGet q s

end Sys2Proof.Machine
end

