-- ==== Sys2Proof/Machine/Step.lean ====
section
/-! DEFINITION. One step of the unit: one command of the host, executed to completion (R5, R49). No step
takes time (R105; notes/assumptions/15.md). -/

namespace Sys2Proof.Machine

/-- Take the next command word, decode it and execute it (R49); a word of the ILLEGAL class does what
`execIllegal` says, and with no command issued the unit waits. -/
def step (s : State) : Host.Outcome State Fault Refusal :=
  match takeCommand s with
  | none => idle s
  | some (cw, s') =>
    match decode cw with
    | .ok i => exec i s'
    | .error _ => execIllegal s'

/-- The host issues one command word, to be taken before any other. Nothing else changes: a command word
is never stored in BUF (R25). DESIGN CHOICE, safe: notes/assumptions/3.md. -/
def State.withFetchWord (s : State) (nbits w : Nat) : State :=
  { s with port := tableWord nbits w :: s.port }

end Sys2Proof.Machine
end

