-- ==== Sys2Proof/Machine/Assembler.lean ====
section
/-! DEFINITION. The assembler's notation (R47, R48): one line of text to command words. No command of
the unit reads any of it: "each expanded by the assembler into real commands before anything reaches
the unit" (R48). A line is a list of characters.
Where R47 is silent on the form of a line: DESIGN CHOICE, and the ASCII table PRESUMED, unsafe
(notes/assumptions/13.md). -/

namespace Sys2Proof.Machine

/-! ### Pseudo-instructions (R48) -/

/-- PUSHS: one PUSH for each byte of the string, in order. -/
def expandPushs (bytes : List Byte) : List Instr := bytes.map .push

/-- PADX n: n copies of `PUSH 0x58`. -/
def expandPadx (n : Nat) : List Instr := List.replicate n (.push Config.filler)

/-! ### Operands (R47) -/

/-- The value of a digit of one alphabet: `n` characters in a row from `first`, which is worth `v`. -/
def digitOf (first : Char) (n v : Nat) (c : Char) : Option Nat :=
  let place := c.toNat - first.toNat
  if first.toNat ≤ c.toNat ∧ place < n then some (v + place) else none

/-- A decimal digit, 0 to 9 (R47: "decimal (`16`)"). -/
def decDigit (c : Char) : Option Nat := digitOf '0' 10 0 c

/-- A hexadecimal digit: a decimal one, or one of the six letters worth 10 to 15, in either case (R47:
"hexadecimal with `0x` (`0x41`)"; DESIGN CHOICE on the case, unsafe: notes/assumptions/13.md). -/
def hexDigit (c : Char) : Option Nat :=
  [decDigit c, digitOf 'A' 6 10 c, digitOf 'a' 6 10 c].findSome? id

/-- Digits to a number, in a base; `none` where a character is no digit of it. -/
def digitsFrom (digit : Char → Option Nat) (base : Nat) : Nat → List Char → Option Nat
  | v, [] => some v
  | v, c :: cs =>
    match digit c with
    | none => none
    | some d => digitsFrom digit base (v * base + d) cs

/-- A printable ASCII character: a space to a tilde. -/
def printable (c : Char) : Bool := decide (' ' ≤ c ∧ c ≤ '~')

/-- A numeric operand: decimal, hexadecimal with 0x, or one printable character in single quotes. -/
def numberOperand : List Char → Option Nat
  | [] => none
  | ['\'', c, '\''] => if printable c then some c.toNat else none
  | '0' :: 'x' :: c :: cs => digitsFrom hexDigit 16 0 (c :: cs)
  | c :: cs => digitsFrom decDigit 10 0 (c :: cs)

/-- A numeric operand that fits the operand field (R40: "an unsigned 8-bit number, 0 to 255"). -/
def byteOperand (t : List Char) : Option Byte :=
  match numberOperand t with
  | none => none
  | some n => if n ≤ 255 then some (BitVec.ofNat 8 n) else none

/-- GET's operand: "GET takes a name or a number" (R47), the number 0 to 3 (R76). -/
def getOperand (t : List Char) : Option Byte :=
  if t = ['S', 'U', 'M'] then some 0
  else if t = ['S', 'T', 'A', 'T', 'U', 'S'] then some 1
  else if t = ['L', 'E', 'N'] then some 2
  else if t = ['B', 'L', 'K'] then some 3
  else
    match byteOperand t with
    | none => none
    | some b => if b.toNat ≤ 3 then some b else none

/-- The characters of a string after its opening quote, to its closing one, as bytes, with the escapes of
rule R48; `none` where the string does not end, or holds another escape or a character that does not
print. -/
def stringBody : List Char → Option (List Byte)
  | [] => none
  | ['"'] => some []
  | '\\' :: 'n' :: cs => (stringBody cs).map (0x0A :: ·)
  | '\\' :: '\\' :: cs => (stringBody cs).map (0x5C :: ·)
  | c :: cs =>
    if c = '\\' ∨ c = '"' ∨ !printable c then none
    else (stringBody cs).map (BitVec.ofNat 8 c.toNat :: ·)

/-- PUSHS's operand: a string in double quotes. -/
def stringOperand : List Char → Option (List Byte)
  | '"' :: cs => stringBody cs
  | _ => none

/-! ### A line (R47) -/

/-- Where a character stands in a line: outside quotes, in a string, after a backslash in a string, just
after an opening single quote, or at the closing one. -/
inductive Quoting where
  | outside
  | inString
  | escaped
  | quoted
  | closing
  deriving DecidableEq, Repr

/-- Where the character after `c` stands. -/
def Quoting.next (q : Quoting) (c : Char) : Quoting :=
  match q with
  | .outside => if c = '"' then .inString else if c = '\'' then .quoted else .outside
  | .inString => if c = '\\' then .escaped else if c = '"' then .outside else .inString
  | .escaped => .inString
  | .quoted => .closing
  | .closing => .outside

/-- The line before its comment, "from `;` to the end of the line": a semicolon inside quotes is no comment. -/
def dropComment : Quoting → List Char → List Char
  | _, [] => []
  | q, c :: cs => if q = .outside ∧ c = ';' then [] else c :: dropComment (q.next c) cs

/-- The spaces and tabs at the left of a line taken off. -/
def trimLeft : List Char → List Char
  | [] => []
  | c :: cs => if c = ' ' ∨ c = '\t' then trimLeft cs else c :: cs

/-- The spaces and tabs at both ends of a line taken off. -/
def trim (l : List Char) : List Char := (trimLeft (trimLeft l).reverse).reverse

/-- A line cut at its first space: the mnemonic, and the operand's text (empty when there is none). -/
def splitMnemonic : List Char → List Char × List Char
  | [] => ([], [])
  | c :: cs =>
    if c = ' ' ∨ c = '\t' then ([], trimLeft cs)
    else
      match splitMnemonic cs with
      | (m, t) => (c :: m, t)

/-- The commands of a mnemonic and its operand's text (R47, R48); `none` for any other text. -/
def commandsOf (m t : List Char) : Option (List Instr) :=
  if m = ['R', 'S', 'T'] then (if t = [] then some [.rst] else none)
  else if m = ['S', 'T', 'E', 'P'] then (if t = [] then some [.step] else none)
  else if m = ['R', 'U', 'N'] then (if t = [] then some [.run] else none)
  else if m = ['C', 'F', 'G'] then (byteOperand t).map fun b => [.cfg b]
  else if m = ['P', 'U', 'S', 'H'] then (byteOperand t).map fun b => [.push b]
  else if m = ['G', 'E', 'T'] then (getOperand t).map fun b => [.get b]
  else if m = ['P', 'U', 'S', 'H', 'S'] then (stringOperand t).map expandPushs
  else if m = ['P', 'A', 'D', 'X'] then (numberOperand t).map expandPadx
  else none

/-- One line of assembly to the words it stands for, in order: none of them for an empty line, `none`
where the line is not of the form rule R47 gives. -/
def assembleLine (line : List Char) : Option (List CmdWord) :=
  let text := trim (dropComment .outside line)
  if text = [] then some []
  else
    match splitMnemonic text with
    | (m, t) => (commandsOf m t).map fun is => is.map encode

end Sys2Proof.Machine
end

