-- ==== Sys2Proof/Safety.lean ====
section
/-! DEFINITION. What a run may rely on (the invariants of rule R22), the source's own checksum of a list
of bytes (R53, R58, R62), the host's duties (R78, R97, R98), and the vocabulary of the statements. -/

namespace Sys2Proof

open Sys2Proof.Machine

/-! ### Invariants (R22) -/

/-- The invariants of rule R22 between the registers, and what the model's own representation adds: MAXBYTES
is legal, and BUF is canonical, holds no index that does not exist, and holds a value at every index
below LEN. The rows of R22's table that need no clause, since they hold of every state by its types
and by the layout of STATUS, stand beside it in `InvariantTable`. -/
structure StateInv (s : State) : Prop where
  /-- "if W = 0 then ACC = 0, CY = 0, BLK = 0". -/
  unconfigured : s.w = none → s.acc = 0 ∧ s.cy = false ∧ s.blk = 0
  /-- "if W is not 0 then ACC < 2^W". -/
  accFits : ∀ w, s.w = some w → s.acc.toNat < 2 ^ w.bits
  /-- "0 <= LEN <= MAXBYTES". -/
  lenBound : s.len ≤ s.maxBytes
  /-- "if W is not 0 then BLK * W <= 8 * LEN". -/
  blkBound : ∀ w, s.w = some w → s.blk * w.bits ≤ 8 * s.len
  /-- The legal values of MAXBYTES (R4). -/
  maxLegal : Config.legalMaxBytes s.maxBytes
  /-- BUF is in canonical form (the model's own). -/
  bufSorted : s.buf.wf
  /-- BUF holds no index at or above MAXBYTES (R32). -/
  bufInRange : ∀ c ∈ s.buf, c.1 < s.maxBytes
  /-- Every byte of the record has been pushed (R27, R28). -/
  recordWritten : ∀ a, a < s.len → (s.buf.read a).isSome = true

/-- Every row of rule R22's table: the invariants, and the three rows that say which values W, ERR and the
zero bits of STATUS can take. -/
def InvariantTable (s : State) : Prop :=
  StateInv s ∧ widthField s.w ∈ [0, 8, 16, 32] ∧ errField s.err ∈ [0, 1, 3, 4, 5] ∧
  (statusWord s).extractLsb' 5 3 = 0 ∧ (statusWord s).extractLsb' 14 18 = 0

/-- The accumulator and the carry are the sum of the first BLK blocks of the record as it stands (R15, R63,
R67, and R78: "it is the partial sum of the first BLK blocks"). -/
def PartialSum (s : State) : Prop :=
  ∀ w, s.w = some w → (s.acc.toNat, s.cy) = sumBlocks s w s.blk

/-! ### The source's checksum of a list of bytes (R62) -/

/-- The Input Record: the bytes below LEN (00_scope.md section 7). -/
def inputRecord (s : State) : List Byte := (List.range s.len).map (byteAt s)

/-- "For each byte, emit its 8 bits most-significant-bit first" (R54). -/
def expandByte (b : Byte) : List Bool := (List.range 8).map fun j => b.getLsbD (7 - j)

/-- The Bit Expander (R53 to R55): the bits of the bytes, in order. -/
def expandBits (bs : List Byte) : List Bool := bs.flatMap expandByte

/-- Bits "as an unsigned binary number, most-significant bit first" (R58). -/
def bitsToNat (l : List Bool) : Nat := l.foldl (fun v b => 2 * v + b.toNat) 0

/-- The first `n` blocks of `w` bits, "in order, non-overlapping" (R58). -/
def cutBlocks (w : Nat) : Nat → List Bool → List Nat
  | 0, _ => []
  | n + 1, l => bitsToNat (l.take w) :: cutBlocks w n (l.drop w)

/-- The Block Summer over a list of blocks (R62), with the source's bit-serial addition (R65): each carry
out is the next addition's carry in. -/
def blockSummer (w : Nat) (blocks : List Nat) : Nat × Bool :=
  blocks.foldl (fun p b => rippleAdd w p.1 b p.2) (0, false)

/-- The source's algorithm whole: expand the bytes, cut the bits, sum the blocks. -/
def sourceSum (w : Nat) (bs : List Byte) : Nat × Bool :=
  blockSummer w (cutBlocks w (8 * bs.length / w) (expandBits bs))

/-! ### What a carry adds up to (R71) -/

/-- How many of the first `n` additions produced a carry out. -/
def carriesOut (s : State) (w : BlockWidth) (n : Nat) : Nat :=
  ((List.range n).filter fun j => (sumBlocks s w (j + 1)).2).length

/-- The exact integer sum of the first `n` blocks. -/
def exactSum (s : State) (w : BlockWidth) (n : Nat) : Nat :=
  ((List.range n).map (blockAt s w)).sum

/-! ### Command sequences and the host's duties (R97, R98) -/

/-- Commands executed one after another, each to completion before the next (R5, R34). -/
def execAll : List Instr → State → Out
  | [], s => .next s
  | i :: is, s =>
    match exec i s with
    | .next t => execAll is t
    | .fault f => .fault f
    | .refused r => .refused r

/-- "the host pushes (-n) mod (W div 8) further bytes 0x58" (R97). -/
def padCount (n : Nat) (w : BlockWidth) : Nat := (w.bytes - n % w.bytes) % w.bytes

/-- A raw line and its filler bytes (R97). -/
def padded (line : List Byte) (w : BlockWidth) : List Byte :=
  line ++ List.replicate (padCount line.length w) Config.filler

/-- The operand of CFG for a width. -/
def cfgOperand (w : BlockWidth) : Byte := BitVec.ofNat 8 w.bits

/-- The commands of rule R98 for one checksum, steps (1) to (5), in whole-record mode. -/
def hostProtocol (w : BlockWidth) (line : List Byte) : List Instr :=
  .rst :: .cfg (cfgOperand w) :: ((padded line w).map .push ++ [.run])

/-- The host's test that GET SUM is the checksum (R78): "(STATUS AND 0x17) = 0x10". -/
def hostTest (s : State) : Bool := statusWord s &&& 0x17 == 0x10

/-! ### What an observer can tell apart (R9, R10) -/

/-- Two states that agree on everything but the bytes of BUF at and above LEN. -/
def SameButUnusedBuf (s t : State) : Prop :=
  s.len = t.len ∧ s.w = t.w ∧ s.acc = t.acc ∧ s.cy = t.cy ∧ s.blk = t.blk ∧ s.err = t.err ∧
  s.maxBytes = t.maxBytes ∧ s.port = t.port ∧ s.resp = t.resp ∧
  ∀ a, a < s.len → s.buf.read a = t.buf.read a

/-! ### Safe runs -/

/-- `k` steps from `s` all answer a next state. -/
def SafeFor (k : Nat) (s : State) : Prop := ∃ t, Host.Core.run core k s = .next t

end Sys2Proof
end

