-- ==== Sys2Proof/Certificates/Slice0/Obligations.lean ====
section
/-! DEFINITION. The statements about the unit, in the order of the spec's files. Each docstring names the
rule it states; where a rule has several sentences the statement has a clause for each.

Where a clause names `maxBytes`, `port` or `resp`, or how BUF is represented, it speaks of the model's own form of
the parameter MAXBYTES, of the command port and of the response (notes/assumptions/1.md to 4.md); no rule is cited
for that form. -/

open Sys2Proof Sys2Proof.Machine

/-! ### State and reset (10_state.md, 70_reset_and_hazards.md) -/

/-- R22, its base case: the state after hardware reset meets every invariant of the rule's table, and the
accumulator is the sum of no block; and so does a unit of any legal capacity that is reset. -/
def Obligations.ResetMeetsInvariants : Prop :=
  StateInv State.reset ∧ PartialSum State.reset ∧
  ∀ s, Config.legalMaxBytes s.maxBytes → StateInv (hardwareReset s) ∧ PartialSum (hardwareReset s)

/-- R22: the invariants of its table "hold after reset and after every command": every row of the table at
the state after reset, and kept by every step from every state that meets them. The clauses of `StateInv` about
the form of BUF are the model's own (notes/assumptions/1.md) and stand beside the rule's. -/
def Obligations.StepKeepsInvariants : Prop :=
  InvariantTable State.reset ∧
  ∀ s t, InvariantTable s → step s = .next t → InvariantTable t

/-- R49: "Exec is a total, deterministic function from (state, command word) to (state, response)": from
a state that meets the invariants every command answers a next state, so does every step, and so does
every run of steps; no fault of the model is ever reached. -/
def Obligations.ExecutionNeverStops : Prop :=
  (∀ s i, StateInv s → ∃ t, exec i s = .next t) ∧
  (∀ s k, StateInv s → SafeFor k s)

/-- R15, R63 and R78: at every state of a run, ACC and CY are the sum of the first BLK blocks of the record
as it stands, whichever commands came before. -/
def Obligations.AccumulatorIsPartialSum : Prop :=
  ∀ s t, StateInv s → PartialSum s → step s = .next t → PartialSum t

/-- R23: after hardware reset, and after RST, LEN, W, ACC, CY, BLK and ERR are zero, and STATUS is zero. RST
leaves BUF as it was, and what BUF holds after either is unobservable: two units that differ only in it
are equal for every observer. -/
def Obligations.ResetValues : Prop :=
  (State.reset.len = 0 ∧ State.reset.w = none ∧ State.reset.acc = 0 ∧ State.reset.cy = false ∧
    State.reset.blk = 0 ∧ State.reset.err = none ∧ statusWord State.reset = 0) ∧
  (∀ s, (hardwareReset s).len = 0 ∧ (hardwareReset s).w = none ∧ (hardwareReset s).acc = 0 ∧
    (hardwareReset s).cy = false ∧ (hardwareReset s).blk = 0 ∧ (hardwareReset s).err = none ∧
    statusWord (hardwareReset s) = 0) ∧
  (∀ s, ∃ t, exec .rst s = .next t ∧ t.len = 0 ∧ t.w = none ∧ t.acc = 0 ∧ t.cy = false ∧ t.blk = 0 ∧
    t.err = none ∧ statusWord t = 0 ∧ t.buf = s.buf) ∧
  (∀ s m, ∃ t u, exec .rst s = .next t ∧ exec .rst { s with buf := m } = .next u ∧ SameButUnusedBuf t u) ∧
  (∀ s m, SameButUnusedBuf (hardwareReset s) { hardwareReset s with buf := m })

/-- R17: the layout of STATUS, field by field, and that GET STATUS returns it and changes nothing. -/
def Obligations.StatusLayout : Prop :=
  ∀ s, (statusWord s).extractLsb' 0 3 = errField s.err ∧
    (statusWord s).getLsbD 3 = s.cy ∧
    (statusWord s).getLsbD 4 = done s ∧
    (statusWord s).extractLsb' 5 3 = 0 ∧
    ((statusWord s).extractLsb' 8 6).toNat = (match s.w with | none => 0 | some w => w.bits) ∧
    (statusWord s).extractLsb' 14 18 = 0 ∧
    exec (.get 1) s = .next { s with resp := some (statusWord s) }

/-- R18: NBLK, and when DONE is 1: not while W is 0, not while the record has a partial trailing block, and
for an empty record as soon as a width is configured. -/
def Obligations.DoneAndNumberOfBlocks : Prop :=
  (∀ s w, 8 * s.len % w.bits = 0 → numBlocks s w = s.len / w.bytes ∧ numBlocks s w * w.bits = 8 * s.len) ∧
  (∀ s, s.w = none → done s = false) ∧
  (∀ s w, s.w = some w → (done s = true ↔ s.blk * w.bits = 8 * s.len)) ∧
  (∀ s w, s.w = some w → 8 * s.len % w.bits ≠ 0 → done s = false) ∧
  (∀ s w, StateInv s → s.w = some w → s.len = 0 → done s = true)

/-- R10: no command reads a byte of BUF at or above LEN, "so the content there can never be observed": two
units that differ only there answer every command with the same response, and differ only there
afterwards. -/
def Obligations.UnusedBufUnobservable : Prop :=
  ∀ s t s', StateInv s → StateInv t → SameButUnusedBuf s t → step s = .next s' →
    ∃ t', step t = .next t' ∧ SameButUnusedBuf s' t'

/-- R72 (d) and (e), R11, R15: in a state that meets the invariants the counters and the products of the
rules fit their words, so nothing wraps and GET LEN and GET BLK return the counts themselves. -/
def Obligations.CountsNeverWrap : Prop :=
  ∀ s, StateInv s → s.len < 2 ^ 29 ∧ s.blk < 2 ^ 29 ∧ 8 * s.len < 2 ^ 31 ∧
    (∀ w, s.w = some w → s.blk * w.bits < 2 ^ 31 ∧ s.blk ≤ numBlocks s w) ∧
    (readout .len s).toNat = s.len ∧ (readout .blk s).toNat = s.blk

/-! ### Frames (10_state.md rule R24) -/

/-- R24, the column BUF: RST, CFG, STEP, RUN and GET store nothing, so every byte of BUF reads as before. -/
def Obligations.OnlyPushStores : Prop :=
  ∀ s t i, (∀ b, i ≠ .push b) → exec i s = .next t → ∀ a, t.buf.read a = s.buf.read a

/-- R24 and R27: PUSH stores to the one index `pushAddr s`, the LEN of the state before it; every other byte
reads as before. The byte is stored when the PUSH is carried out, and the index reads as before when the PUSH
is refused or ignored. -/
def Obligations.PushStoresOneByte : Prop :=
  ∀ s t b, exec (.push b) s = .next t →
    (∀ a, a ≠ pushAddr s → t.buf.read a = s.buf.read a) ∧
    (t.len = s.len + 1 → t.buf.read (pushAddr s) = some b) ∧
    (t.len ≠ s.len + 1 → t = { s with err := t.err, resp := t.resp })

/-- R24, the other columns: what each command leaves unchanged of the registers when it answers a next
state. Every command leaves the parameter and the words still at the port alone. -/
def Obligations.RegisterFrames : Prop :=
  ∀ s t i, exec i s = .next t →
    t.maxBytes = s.maxBytes ∧ t.port = s.port ∧
    (match i with
      | .rst => True
      | .cfg _ => t.len = s.len
      | .push _ => t.w = s.w ∧ t.acc = s.acc ∧ t.cy = s.cy ∧ t.blk = s.blk
      | .step => t.len = s.len ∧ t.w = s.w
      | .run => t.len = s.len ∧ t.w = s.w
      | .get _ => t.len = s.len ∧ t.w = s.w ∧ t.acc = s.acc ∧ t.cy = s.cy ∧ t.blk = s.blk)

/-- R24, the column ERR, and R88: "A command that raises an error writes ERR and nothing else" but its
response, and a command that raises none leaves ERR as it was, RST apart. -/
def Obligations.ErrWrittenAlone : Prop :=
  ∀ s t i, i ≠ .rst → exec i s = .next t →
    t.err = s.err ∨ (s.err = none ∧ t = { s with err := t.err, resp := t.resp })

/-- R12 and R99: only CFG with a legal operand and RST write W, and both start from ACC = 0, CY = 0 and BLK = 0,
so that the width is fixed for the duration of one computation. -/
def Obligations.WidthFixedPerComputation : Prop :=
  ∀ s t i, exec i s = .next t → t.w ≠ s.w →
    (i = .rst ∨ ∃ o bw, i = .cfg o ∧ widthOperand o = some bw ∧ t.w = some bw) ∧
    t.acc = 0 ∧ t.cy = false ∧ t.blk = 0

/-- R11 and R27: LEN never decreases but by RST, grows by at most one byte a command, and a byte of the
record once pushed is never changed until then. -/
def Obligations.RecordOnlyGrows : Prop :=
  ∀ s t i, i ≠ .rst → exec i s = .next t →
    s.len ≤ t.len ∧ t.len ≤ s.len + 1 ∧ ∀ a, a < s.len → t.buf.read a = s.buf.read a

/-! ### Memory and blocks (20_memory.md, 41_bit_picker_and_block_mux.md) -/

/-- R27: bytes are stored in the order the host sends them: pushing a list of bytes that fits appends
exactly that list to the record, and nothing else of the unit's state changes. -/
def Obligations.PushesAppendInOrder : Prop :=
  ∀ bytes s, s.err = none → s.len + bytes.length ≤ s.maxBytes →
    ∃ t, execAll (expandPushs bytes) s = .next t ∧
      inputRecord t = inputRecord s ++ bytes ∧ t.len = s.len + bytes.length ∧
      t.w = s.w ∧ t.acc = s.acc ∧ t.cy = s.cy ∧ t.blk = s.blk ∧ t.err = none

/-- R103: a line that does not fit fills the buffer, and the PUSH that would exceed it raises BufferOverflow,
after which the run is over: LEN is MAXBYTES and ERR is BufferOverflow. -/
def Obligations.TooLongLineOverflows : Prop :=
  ∀ bytes s, s.err = none → s.len ≤ s.maxBytes → s.maxBytes < s.len + bytes.length →
    ∃ t, execAll (expandPushs bytes) s = .next t ∧ t.err = some .bufferOverflow ∧ t.len = s.maxBytes ∧
      inputRecord t = inputRecord s ++ bytes.take (s.maxBytes - s.len)

/-- R53 to R55: the source's Bit Expander, run over the record, gives exactly the Bit Sequence that the
bit-picker shows one bit at a time: 8 * LEN bits, byte i's bits at positions 8 * i to 8 * i + 7, most
significant first. The example of R54 stands last. -/
def Obligations.BitPickerIsBitExpander : Prop :=
  (∀ s, (expandBits (inputRecord s)).length = 8 * s.len) ∧
  (∀ s p, p < 8 * s.len → (expandBits (inputRecord s))[p]? = some (bitAt s p)) ∧
  (∀ s i j, j < 8 → bitAt s (8 * i + j) = (byteAt s i).getLsbD (7 - j)) ∧
  (∀ s p, p < 8 * s.len → bitAt s p = (byteAt s (p / 8)).getLsbD (7 - p % 8)) ∧
  ((List.range 16).map (bitAt { State.reset with buf := [(0, 0xA5), (1, 0x3C)], len := 2 })).map Bool.toNat =
    [1, 0, 1, 0, 0, 1, 0, 1, 0, 0, 1, 1, 1, 1, 0, 0]

/-- R56: "regrouping the Bit Sequence into bytes gives back the record". -/
def Obligations.BitsRegroupToBytes : Prop :=
  ∀ s i, i < s.len →
    ((List.range 8).map fun j => (bitAt s (8 * i + j)).toNat * 2 ^ (7 - j)).sum = (byteAt s i).toNat

/-- R58: bit W-1-j of block k is bit k * W + j of the Bit Sequence, a block is below 2^W, and the blocks of a
whole record cover every position exactly once. -/
def Obligations.BlocksPartitionTheBits : Prop :=
  (∀ s w k j, j < w.bits → (blockAt s w k).testBit (w.bits - 1 - j) = bitAt s (k * w.bits + j)) ∧
  (∀ s w k, blockAt s w k < 2 ^ w.bits) ∧
  (∀ s w p, 8 * s.len % w.bits = 0 → p < 8 * s.len →
    (p / w.bits < numBlocks s w ∧ p / w.bits * w.bits ≤ p ∧ p < p / w.bits * w.bits + w.bits) ∧
    ∀ k, k * w.bits ≤ p → p < k * w.bits + w.bits → k = p / w.bits)

/-- R59 (with R29): a block is its W div 8 bytes read big-endian, the first byte most significant; at W = 8 it
is the byte itself. The blocks of the rule's example record 41 42 0A 58 stand last. -/
def Obligations.BlockIsBigEndianRead : Prop :=
  (∀ s w k, blockAt s w k = memRead s (k * w.bytes) w.bytes) ∧
  (∀ s a, memRead s a 1 = (byteAt s a).toNat) ∧
  (∀ s a, memRead s a 2 = (byteAt s a ++ byteAt s (a + 1)).toNat) ∧
  (∀ s a, memRead s a 4 = (byteAt s a ++ byteAt s (a + 1) ++ byteAt s (a + 2) ++ byteAt s (a + 3)).toNat) ∧
  (∀ s k, blockAt s .w8 k = (byteAt s k).toNat) ∧
  (∀ s, s.buf = [(0, 0x41), (1, 0x42), (2, 0x0A), (3, 0x58)] →
    blockAt s .w16 0 = 0x4142 ∧ blockAt s .w16 1 = 0x0A58 ∧ blockAt s .w32 0 = 0x41420A58)

/-- R28: "Every index read is below LEN": where STEP adds a block, the bytes of that block are all below
LEN and each holds the value last pushed, so the read is allowed. -/
def Obligations.BlockReadsStayInRecord : Prop :=
  ∀ s w, StateInv s → s.w = some w → 8 * s.len % w.bits = 0 → s.blk * w.bits ≠ 8 * s.len →
    s.blk * w.bytes + w.bytes ≤ s.len ∧ checkRead s (s.blk * w.bytes) w.bytes = none

/-! ### Encoding (30_encoding.md) -/

/-- R42 with R39 to R41: a word decodes to a command exactly when it is the encoding of that command and the
command is well-formed; so decoding an encoded command gives it back with its operand at every value,
each command has one word, and no word stands for two commands. -/
def Obligations.DecodeAndEncodeAgree : Prop :=
  ∀ cw i, decode cw = .ok i ↔ (cw = encode i ∧ i.wf = true)

/-- R43: the ILLEGAL class exactly; the legal words are a list of 519 distinct words, so that 65017 of the 2^16
words are illegal, 0x0000 and 0xFFFF among them; and an illegal word raises IllegalCommand and changes nothing
else. -/
def Obligations.IllegalWordsExactly : Prop :=
  (∀ cw, (∃ e, decode cw = .error e) ↔
    (opField cw = 0 ∨ 7 ≤ (opField cw).toNat ∨
      ((opField cw = 1 ∨ opField cw = 4 ∨ opField cw = 5) ∧ immField cw ≠ 0) ∨
      (opField cw = 6 ∧ 4 ≤ (immField cw).toNat))) ∧
  (∃ legal : List CmdWord, legal.Nodup ∧ legal.length = 519 ∧ 2 ^ 16 - legal.length = 65017 ∧
    ∀ cw, cw ∈ legal ↔ ∃ i, decode cw = .ok i) ∧
  (∃ e, decode 0x0000 = .error e) ∧ (∃ e, decode 0xFFFF = .error e) ∧
  (∀ s cw rest e, s.port = cw :: rest → decode cw = .error e → s.err = none →
    step s = .next { s with port := rest, err := some .illegalCommand, resp := some 5 })

/-- R41: a word matches a row when `(word AND mask) = match`: no word matches two rows, every command's word
matches its own row, and a word that matches a row is that row's command, except that a word of GET's
row with a selector above 3 is illegal. -/
def Obligations.OpcodeRowsAgreeWithDecoder : Prop :=
  (∀ cw r r', r ∈ opRows → r' ∈ opRows → r.matches cw = true → r'.matches cw = true → r = r') ∧
  (∀ cw i, decode cw = .ok i → (rowOf i).matches cw = true) ∧
  (∀ cw r, r ∈ opRows → r.matches cw = true →
    (∃ i, decode cw = .ok i ∧ rowOf i = r) ∨
    (r = rowOf (.get 0) ∧ 4 ≤ (immField cw).toNat ∧ ∃ e, decode cw = .error e))

/-- The words of the table under R47, and the first illegal words of 95_test_vectors.md section 2.1. A
sanity statement. -/
def Obligations.WordsOfTheSpecDecode : Prop :=
  decode 0x0100 = .ok .rst ∧ decode 0x0208 = .ok (.cfg 8) ∧ decode 0x0210 = .ok (.cfg 16) ∧
  decode 0x0220 = .ok (.cfg 32) ∧ decode 0x0218 = .ok (.cfg 24) ∧ decode 0x0341 = .ok (.push 0x41) ∧
  decode 0x0400 = .ok .step ∧ decode 0x0500 = .ok .run ∧ decode 0x0600 = .ok (.get 0) ∧
  decode 0x0601 = .ok (.get 1) ∧ decode 0x0602 = .ok (.get 2) ∧ decode 0x0603 = .ok (.get 3) ∧
  decode 0x0101 = .error (.operandNotZero 1 1) ∧ decode 0x0604 = .error (.selectorOutOfRange 4) ∧
  decode 0x0000 = .error (.unassignedOpcode 0) ∧ decode 0xFFFF = .error (.unassignedOpcode 0xFF)

/-- R48: PUSHS expands to one PUSH per byte of its string, in order, with the two escapes, and PADX n to n copies
of `PUSH 0x58`: the words that reach the unit. The rule's example, `PUSHS "AB\n"`, stands last. -/
def Obligations.PseudoCommandsExpand : Prop :=
  (∀ bytes, (expandPushs bytes).map encode = bytes.map fun b => 0x0300#16 + b.setWidth 16) ∧
  (∀ n, (expandPadx n).map encode = List.replicate n 0x0358#16) ∧
  (∀ cs, stringBody ('\\' :: 'n' :: cs) = (stringBody cs).map (0x0A :: ·) ∧
    stringBody ('\\' :: '\\' :: cs) = (stringBody cs).map (0x5C :: ·)) ∧
  (∀ t, commandsOf ['P', 'U', 'S', 'H', 'S'] t = (stringOperand t).map expandPushs ∧
    commandsOf ['P', 'A', 'D', 'X'] t = (numberOperand t).map expandPadx) ∧
  assembleLine ['P', 'U', 'S', 'H', 'S', ' ', '"', 'A', 'B', '\\', 'n', '"'] = some [0x0341, 0x0342, 0x030A]

/-! ### Execution (40_config_and_load.md, 42_accumulate.md, 43_readout.md) -/

/-- R49: a step takes one command word from the port and does what the word's command does at the state
with that word taken; a word of the ILLEGAL class is ignored by the gate or raises IllegalCommand; with
no word issued the unit waits (R95; what a step without a command does is the model's choice,
notes/assumptions/5.md). -/
def Obligations.StepRunsDecodedCommand : Prop :=
  (∀ s cw rest i, s.port = cw :: rest → decode cw = .ok i → step s = exec i { s with port := rest }) ∧
  (∀ s cw rest x, s.port = cw :: rest → decode cw = .error x →
    step s = (match s.err with
      | none => .next { s with port := rest, err := some .illegalCommand, resp := some 5 }
      | some e => .next { s with port := rest, resp := some (errWord (some e)) })) ∧
  (∀ s, s.port = [] → step s = .next s)

/-- R46: every command returns one response word: the selected value for a GET with a legal selector, and
`zext_32(ERR)`, ERR being the latch after the command, for every other word, legal or illegal. One word
is taken from the port. -/
def Obligations.EveryCommandResponds : Prop :=
  ∀ s t cw rest, s.port = cw :: rest → step s = .next t →
    t.port = rest ∧
    (∀ q sel, decode cw = .ok (.get q) → selectorOperand q = some sel → t.resp = some (readout sel s)) ∧
    ((∀ q, decode cw ≠ .ok (.get q)) → t.resp = some ((errField t.err).setWidth 32))

/-- R50: RST's word, its effect on every state (even when ERR is not 0), its response, the illegal words beside
it, that its effect equals hardware reset but for BUF, and that it is the only command that clears ERR. RST on
a freshly reset unit changes nothing. The rule's example stands last. -/
def Obligations.RstResult : Prop :=
  encode .rst = 0x0100 ∧
  (∀ s, exec .rst s = .next { s with
    len := 0, w := none, acc := 0, cy := false, blk := 0, err := none, resp := some 0 }) ∧
  (∀ imm : Byte, imm ≠ 0 → ∃ e, decode (0x01#8 ++ imm) = .error e) ∧
  (∀ s, exec .rst s = .next { hardwareReset s with buf := s.buf, port := s.port, resp := some 0 }) ∧
  (∀ s t i e, s.err = some e → exec i s = .next t → t.err = none → i = .rst) ∧
  (∀ s, exec .rst (hardwareReset s) = .next { hardwareReset s with resp := some 0 }) ∧
  (∀ s, s.err = some .invalidInputLength → ∃ t u, exec .rst s = .next t ∧ t.resp = some 0 ∧
    exec (.get 1) t = .next u ∧ u.resp = some 0)

/-- R51: CFG's words, its effect at a legal width, ConfigurationError at every other operand with nothing
else changed, and that it is reached only when ERR = 0. The rule's two examples stand last. -/
def Obligations.CfgResult : Prop :=
  (∀ w : Byte, encode (.cfg w) = 0x0200#16 + w.setWidth 16 ∧ decode (encode (.cfg w)) = .ok (.cfg w)) ∧
  (∀ s w bw, s.err = none → w.toNat = BlockWidth.bits bw →
    exec (.cfg w) s = .next { s with w := some bw, acc := 0, cy := false, blk := 0, resp := some 0 }) ∧
  (∀ s w, s.err = none → w ≠ 8 → w ≠ 16 → w ≠ 32 →
    exec (.cfg w) s = .next { s with err := some .configurationError, resp := some 1 }) ∧
  (∀ s w e, s.err = some e → exec (.cfg w) s = .next { s with resp := some (errWord (some e)) }) ∧
  (∃ t, exec (.cfg 16) State.reset = .next t ∧ t.resp = some 0 ∧ t.w = some .w16 ∧ statusWord t = 0x00001010) ∧
  (∃ t, exec (.cfg 24) State.reset = .next t ∧ t.resp = some 1 ∧ statusWord t = 0x00000001)

/-- R52: PUSH's words, the byte it appends whatever the width and the progress of the computation,
BufferOverflow when LEN = MAXBYTES with nothing else changed, that DONE returns to 0 when a byte is pushed
after the last block, and that it is reached only when ERR = 0. The rule's example stands last. -/
def Obligations.PushResult : Prop :=
  (∀ b : Byte, encode (.push b) = 0x0300#16 + b.setWidth 16 ∧ decode (encode (.push b)) = .ok (.push b)) ∧
  (∀ s b, s.err = none → s.len < s.maxBytes →
    exec (.push b) s = .next { s with buf := s.buf.write s.len b, len := s.len + 1, resp := some 0 }) ∧
  (∀ s b, s.err = none → s.len = s.maxBytes →
    exec (.push b) s = .next { s with err := some .bufferOverflow, resp := some 4 }) ∧
  (∀ s b t, s.err = none → s.len < s.maxBytes → done s = true → exec (.push b) s = .next t → done t = false) ∧
  (∀ s b e, s.err = some e → exec (.push b) s = .next { s with resp := some (errWord (some e)) }) ∧
  exec (.push 0x41) State.reset =
    .next { State.reset with buf := [(0, 0x41)], len := 1, resp := some 0 }

/-- R67: STEP's word, its two errors in their order, the no-op at the end of the record, the addition with
the latched carry in and the carry out latched, whose block is all within the record, a zero block, and that it
is reached only when ERR = 0. The rule's example stands last. -/
def Obligations.StepResult : Prop :=
  (encode .step = 0x0400 ∧ decode 0x0400 = .ok .step) ∧
  (∀ s, s.err = none → s.w = none →
    exec .step s = .next { s with err := some .configurationError, resp := some 1 }) ∧
  (∀ s w, s.err = none → s.w = some w → 8 * s.len % w.bits ≠ 0 →
    exec .step s = .next { s with err := some .invalidInputLength, resp := some 3 }) ∧
  (∀ s w, s.err = none → s.w = some w → 8 * s.len % w.bits = 0 → s.blk * w.bits = 8 * s.len →
    exec .step s = .next { s with resp := some 0 }) ∧
  (∀ s w, StateInv s → s.err = none → s.w = some w → 8 * s.len % w.bits = 0 → s.blk * w.bits ≠ 8 * s.len →
    exec .step s = .next { s with
      acc := BitVec.ofNat 32 ((s.acc.toNat + blockAt s w s.blk + s.cy.toNat) % 2 ^ w.bits)
      cy := decide (2 ^ w.bits ≤ s.acc.toNat + blockAt s w s.blk + s.cy.toNat)
      blk := s.blk + 1
      resp := some 0 } ∧ s.blk * w.bits + w.bits ≤ 8 * s.len) ∧
  (∀ s w, StateInv s → s.err = none → s.w = some w → 8 * s.len % w.bits = 0 → s.blk * w.bits ≠ 8 * s.len →
    blockAt s w s.blk = 0 →
    ∃ t, exec .step s = .next t ∧ t.acc.toNat = (s.acc.toNat + s.cy.toNat) % 2 ^ w.bits ∧
      (s.cy = false → t.acc = s.acc ∧ t.cy = false)) ∧
  (∀ s e, s.err = some e → exec .step s = .next { s with resp := some (errWord (some e)) }) ∧
  exec .step { State.reset with
      buf := [(0, 0xFF), (1, 0x02)], len := 2, w := some .w8, acc := 0xFF, blk := 1 } =
    .next { State.reset with
      buf := [(0, 0xFF), (1, 0x02)], len := 2, w := some .w8, acc := 0x01, cy := true, blk := 2,
      resp := some 0 }

/-- R68: RUN's word, its two errors in their order with nothing else changed, the sum of all NBLK blocks from
ACC = 0 and CY = 0, at most MAXBYTES of them, the empty record, that it does not depend on the previous ACC, CY
or BLK, that repeating it changes nothing, and that it is reached only when ERR = 0. The rule's example stands
last. -/
def Obligations.RunResult : Prop :=
  (encode .run = 0x0500 ∧ decode 0x0500 = .ok .run) ∧
  (∀ s, s.err = none → s.w = none →
    exec .run s = .next { s with err := some .configurationError, resp := some 1 }) ∧
  (∀ s w, s.err = none → s.w = some w → 8 * s.len % w.bits ≠ 0 →
    exec .run s = .next { s with err := some .invalidInputLength, resp := some 3 }) ∧
  (∀ s w, StateInv s → s.err = none → s.w = some w → 8 * s.len % w.bits = 0 →
    exec .run s = .next { s with
      acc := BitVec.ofNat 32 (sumBlocks s w (8 * s.len / w.bits)).1
      cy := (sumBlocks s w (8 * s.len / w.bits)).2
      blk := 8 * s.len / w.bits
      resp := some 0 } ∧ 8 * s.len / w.bits ≤ s.maxBytes) ∧
  (∀ s w, sumBlocks s w 0 = (0, false) ∧
    ∀ k, sumBlocks s w (k + 1) =
      addEAC w.bits (sumBlocks s w k).1 (blockAt s w k) (sumBlocks s w k).2) ∧
  (∀ s w, s.err = none → s.w = some w → s.len = 0 →
    exec .run s = .next { s with acc := 0, cy := false, blk := 0, resp := some 0 }) ∧
  (∀ s w a c k, s.w = some w → 8 * s.len % w.bits = 0 → s.err = none →
    exec .run { s with acc := a, cy := c, blk := k } = exec .run s) ∧
  (∀ s t w, s.err = none → s.w = some w → 8 * s.len % w.bits = 0 → exec .run s = .next t →
    exec .run t = .next t) ∧
  (∀ s e, s.err = some e → exec .run s = .next { s with resp := some (errWord (some e)) }) ∧
  (∀ s, s.buf = [(0, 0x41), (1, 0x42), (2, 0x0A)] → sumBlocks s .w8 1 = (0x41, false) ∧
    sumBlocks s .w8 2 = (0x83, false) ∧ sumBlocks s .w8 3 = (0x8D, false)) ∧
  exec .run { State.reset with buf := [(0, 0x41), (1, 0x42), (2, 0x0A)], len := 3, w := some .w8 } =
    .next { State.reset with
      buf := [(0, 0x41), (1, 0x42), (2, 0x0A)], len := 3, w := some .w8, acc := 0x8D, blk := 3,
      resp := some 0 }

/-- R76: GET's words and the value of each selector, whatever ERR is, with no state changed; a word 0x0604 to
0x06FF is no GET: it decodes as illegal, and the step that takes it raises IllegalCommand when ERR = 0 and ignores
it when ERR is not 0, the response being ERR after it; from reset every GET returns 0. The rule's example stands
last. -/
def Obligations.GetResult : Prop :=
  (encode (.get 0) = 0x0600 ∧ encode (.get 1) = 0x0601 ∧ encode (.get 2) = 0x0602 ∧
    encode (.get 3) = 0x0603) ∧
  (∀ s, exec (.get 0) s = .next { s with resp := some s.acc }) ∧
  (∀ s, exec (.get 1) s = .next { s with resp := some (statusWord s) }) ∧
  (∀ s, exec (.get 2) s = .next { s with resp := some (BitVec.ofNat 32 s.len) }) ∧
  (∀ s, exec (.get 3) s = .next { s with resp := some (BitVec.ofNat 32 s.blk) }) ∧
  (∀ q : Byte, 4 ≤ q.toNat → (∃ e, decode (0x0600#16 + q.setWidth 16) = .error e) ∧
    ∀ s rest, s.port = (0x0600#16 + q.setWidth 16) :: rest →
      (s.err = none →
        step s = .next { s with port := rest, err := some .illegalCommand, resp := some 5 }) ∧
      (∀ e, s.err = some e → step s = .next { s with port := rest, resp := some (errWord (some e)) })) ∧
  (∀ q : Byte, q.toNat ≤ 3 → exec (.get q) State.reset = .next { State.reset with resp := some 0 }) ∧
  (∀ s, s.w = some .w8 → s.len = 3 → s.blk = 3 → s.acc = 0x8D → s.cy = false → s.err = none →
    exec (.get 0) s = .next { s with resp := some 0x0000008D } ∧
    exec (.get 1) s = .next { s with resp := some 0x00000810 } ∧
    exec (.get 2) s = .next { s with resp := some 0x00000003 } ∧
    exec (.get 3) s = .next { s with resp := some 0x00000003 })

/-! ### The adder and the sum (42_accumulate.md) -/

/-- R64: the end-around-carry adder loses nothing within an addition, its result has W bits, and its carry
out is the overflow out of the most significant bit. -/
def Obligations.AdderIsExact : Prop :=
  ∀ w acc b cin, acc < 2 ^ w → b < 2 ^ w →
    (addEAC w acc b cin).1 + 2 ^ w * (addEAC w acc b cin).2.toNat = acc + b + cin.toNat ∧
    (addEAC w acc b cin).1 = (acc + b + cin.toNat) % 2 ^ w ∧
    (addEAC w acc b cin).2.toNat = (acc + b + cin.toNat) / 2 ^ w ∧
    acc + b + cin.toNat ≤ 2 ^ (w + 1) - 1 ∧
    (addEAC w acc b cin).2 = (acc + b + cin.toNat).testBit w

/-- R65: the bit-serial form, W full adders rippling from bit 0, gives the same result and carry out for every
input: as the model's `rippleAdd` computes it, and for any carries c that meet the rule's two equations. -/
def Obligations.BitSerialAdderAgrees : Prop :=
  ∀ w acc b cin, acc < 2 ^ w → b < 2 ^ w →
    rippleAdd w acc b cin = addEAC w acc b cin ∧
    ∀ c : Nat → Bool, c 0 = cin →
      (∀ i, c (i + 1) =
        ((acc.testBit i && b.testBit i) || (acc.testBit i && c i) || (b.testBit i && c i))) →
      (∀ i, i < w → (addEAC w acc b cin).1.testBit i = ((acc.testBit i).xor (b.testBit i)).xor (c i)) ∧
      (addEAC w acc b cin).2 = c w

/-- R66: the bounds of the adder, and its two corner cases: a carry in that alone causes the carry out, and
the absolute maximum. -/
def Obligations.AdderBounds : Prop :=
  (∀ w acc b cin, acc < 2 ^ w → b < 2 ^ w →
    acc + b + Bool.toNat cin ≤ 2 ^ (w + 1) - 1 ∧ (addEAC w acc b cin).1 < 2 ^ w) ∧
  (∀ w, addEAC w (2 ^ w - 1) 0 true = (0, true)) ∧
  (∀ w, addEAC w (2 ^ w - 1) (2 ^ w - 1) true = (2 ^ w - 1, true))

/-- R69: "RUN is the same as initialisation followed by NBLK STEPs": the two ways of driving the unit end in
the same state. -/
def Obligations.RunIsCfgThenSteps : Prop :=
  ∀ s w, StateInv s → s.err = none → s.w = some w → 8 * s.len % w.bits = 0 →
    ∃ t, exec .run s = .next t ∧
      execAll (.cfg (cfgOperand w) :: List.replicate (8 * s.len / w.bits) .step) s = .next t

/-- R102: a computation in progress, or one that a PUSH has extended, goes on from the latched carry to the
same ACC, CY and BLK as a RUN from block 0. -/
def Obligations.StepsContinueToRun : Prop :=
  ∀ s w, StateInv s → PartialSum s → s.err = none → s.w = some w → 8 * s.len % w.bits = 0 →
    ∃ t u, exec .run s = .next t ∧
      execAll (List.replicate (8 * s.len / w.bits - s.blk) .step) s = .next u ∧
      u.acc = t.acc ∧ u.cy = t.cy ∧ u.blk = t.blk ∧ done u = true

/-- R62: RUN computes the source's checksum: expand the record's bytes into bits, cut the bits into blocks of
the Block Width, add them bit-serially with each carry out the next carry in; ACC is the result and CY
the carry out of the last block. -/
def Obligations.RunIsSourceChecksum : Prop :=
  ∀ s w, StateInv s → s.err = none → s.w = some w → 8 * s.len % w.bits = 0 →
    ∃ t, exec .run s = .next t ∧ (t.acc.toNat, t.cy) = sourceSum w.bits (inputRecord s) ∧
      t.acc.toNat < 2 ^ w.bits ∧ inputRecord t = inputRecord s ∧ t.blk * w.bits = 8 * t.len

/-- R70: the carry out of the last block is not folded back: ACC after RUN is the last addition's W-bit result
alone, CY holds the carry, and GET SUM returns ACC without it. The rule's example is the last clause. -/
def Obligations.LastCarryDropped : Prop :=
  (∀ s t w n, StateInv s → s.err = none → s.w = some w → 8 * s.len = (n + 1) * w.bits → exec .run s = .next t →
    t.acc.toNat = ((sumBlocks s w n).1 + blockAt s w n + (sumBlocks s w n).2.toNat) % 2 ^ w.bits ∧
    t.cy = decide (2 ^ w.bits ≤ (sumBlocks s w n).1 + blockAt s w n + (sumBlocks s w n).2.toNat)) ∧
  (∀ (s : State) c, exec (.get 0) { s with cy := c } = .next { s with cy := c, resp := some s.acc }) ∧
  exec .run { State.reset with buf := [(0, 0xFF), (1, 0x02)], len := 2, w := some .w8 } =
    .next { State.reset with
      buf := [(0, 0xFF), (1, 0x02)], len := 2, w := some .w8, acc := 0x01, cy := true, blk := 2,
      resp := some 0 }

/-- R71: the closed form. After n additions from the initial state, ACC + 2^W * CY + (2^W - 1) times the number
of the first n - 1 additions that carried out is the exact sum S of the blocks; hence ACC + CY is congruent
to S modulo 2^W - 1, and with no carry out anywhere ACC = S. It holds of ACC, CY and BLK in every state
whose ACC and CY are the partial sum, and so at every point of a run. -/
def Obligations.ClosedFormOfTheSum : Prop :=
  ∀ s w, PartialSum s → s.w = some w →
    s.acc.toNat + 2 ^ w.bits * s.cy.toNat + (2 ^ w.bits - 1) * carriesOut s w (s.blk - 1) =
      exactSum s w s.blk ∧
    (s.acc.toNat + s.cy.toNat) % (2 ^ w.bits - 1) = exactSum s w s.blk % (2 ^ w.bits - 1) ∧
    (carriesOut s w s.blk = 0 → s.acc.toNat = exactSum s w s.blk)

/-- R74: "same (bytes, width) always yields the same accumulator value": after RST, CFG w, the same PUSHes and
RUN, two units of the same capacity hold the same ACC, CY, BLK, LEN and ERR, whatever either did before. -/
def Obligations.ChecksumDeterministic : Prop :=
  ∀ (s s' : State) (w : Byte) (bytes : List Byte), s.maxBytes = s'.maxBytes →
    ∃ t t', execAll (.rst :: .cfg w :: (bytes.map .push ++ [.run])) s = .next t ∧
      execAll (.rst :: .cfg w :: (bytes.map .push ++ [.run])) s' = .next t' ∧
      t.acc = t'.acc ∧ t.cy = t'.cy ∧ t.blk = t'.blk ∧ t.len = t'.len ∧ t.err = t'.err

/-- R75: a record of zero bytes sums to zero with no carry. -/
def Obligations.ZeroRecordSumsToZero : Prop :=
  ∀ s w, StateInv s → s.err = none → s.w = some w → 8 * s.len % w.bits = 0 →
    (∀ a, a < s.len → s.buf.read a = some 0) →
    ∃ t, exec .run s = .next t ∧ t.acc = 0 ∧ t.cy = false

/-- R78: the host's test `(STATUS AND 0x17) = 0x10` says exactly that ERR = 0 and DONE = 1, and then the
response of GET SUM is the source's checksum of the record at width W. In every state of a run it is the
partial sum of the first BLK blocks. -/
def Obligations.HostTestMeansChecksum : Prop :=
  (∀ s, hostTest s = true ↔ (s.err = none ∧ done s = true)) ∧
  (∀ s w, StateInv s → PartialSum s → s.w = some w → hostTest s = true →
    ∃ t, exec (.get 0) s = .next t ∧
      t.resp = some (BitVec.ofNat 32 (sourceSum w.bits (inputRecord s)).1) ∧
      (sourceSum w.bits (inputRecord s)).1 < 2 ^ 32) ∧
  (∀ s w, PartialSum s → s.w = some w →
    exec (.get 0) s = .next { s with resp := some (BitVec.ofNat 32 (sumBlocks s w s.blk).1) })

/-- R101: a zero block added after a completed computation folds the last carry in, at the price of a longer
record. Stated at width 8, where the block is one byte. -/
def Obligations.ZeroBlockFoldsCarry : Prop :=
  ∀ s, StateInv s → s.err = none → s.w = some .w8 → done s = true → s.len < s.maxBytes →
    ∃ t, execAll [.push 0, .step] s = .next t ∧
      t.acc.toNat = (s.acc.toNat + s.cy.toNat) % 2 ^ 8 ∧
      t.cy = decide (s.acc.toNat + s.cy.toNat = 2 ^ 8) ∧ t.len = s.len + 1 ∧ done t = true

/-! ### Errors (60_exceptions.md) -/

/-- R80, R81, R83, R84 and R85: the codes of the errors, that no other code is ever held, and the cause of each
error exactly: which command raises it and when, and for IllegalCommand that the step's word is in the ILLEGAL
class. -/
def Obligations.ErrorCodesAndCauses : Prop :=
  (errField none = 0 ∧ errField (some .configurationError) = 1 ∧
    errField (some .invalidInputLength) = 3 ∧ errField (some .bufferOverflow) = 4 ∧
    errField (some .illegalCommand) = 5) ∧
  (∀ e, errField e ≠ 2 ∧ errField e ≠ 6 ∧ errField e ≠ 7) ∧
  (∀ s t i, s.err = none → exec i s = .next t →
    (t.err = some .configurationError ↔
      (∃ w, i = .cfg w ∧ w ≠ 8 ∧ w ≠ 16 ∧ w ≠ 32) ∨ ((i = .step ∨ i = .run) ∧ s.w = none)) ∧
    (t.err = some .invalidInputLength ↔
      (i = .step ∨ i = .run) ∧ ∃ w, s.w = some w ∧ 8 * s.len % w.bits ≠ 0) ∧
    (t.err = some .bufferOverflow ↔ (∃ b, i = .push b) ∧ s.len = s.maxBytes)) ∧
  (∀ s cw rest, s.port = cw :: rest → s.err = none →
    ((∃ t, step s = .next t ∧ t.err = some .illegalCommand) ↔ ∃ x, decode cw = .error x))

/-- R82: STEP and RUN raise InvalidInputLength exactly when a width is configured and the record is not a whole
number of blocks, equivalently LEN mod (W div 8) is not 0, and never at W = 8. -/
def Obligations.LengthErrorExactly : Prop :=
  (∀ s w, s.err = none → s.w = some w → 8 * s.len % w.bits ≠ 0 →
    (∃ t, exec .step s = .next t ∧ t.err = some .invalidInputLength) ∧
    (∃ t, exec .run s = .next t ∧ t.err = some .invalidInputLength)) ∧
  (∀ s t i, s.err = none → exec i s = .next t → t.err = some .invalidInputLength →
    (i = .step ∨ i = .run) ∧ ∃ w, s.w = some w ∧ 8 * s.len % w.bits ≠ 0 ∧ w ≠ .w8) ∧
  (∀ (s : State) (w : BlockWidth), (8 * s.len % w.bits ≠ 0 ↔ s.len % w.bytes ≠ 0))

/-- R86: the error entry. `raise E` with ERR = 0 writes the code and nothing else; with ERR not 0 it changes
nothing, so the first error wins. The command that raised it responds with the new code. -/
def Obligations.RaiseKeepsFirstError : Prop :=
  (∀ s e, s.err = none → raiseError e s = { s with err := some e }) ∧
  (∀ s e e', s.err = some e' → raiseError e s = s) ∧
  (∀ s t i, i ≠ .rst → s.err = none → exec i s = .next t → t.err ≠ none →
    t = { s with err := t.err, resp := some ((errField t.err).setWidth 32) })

/-- R87: the gate. While ERR is not 0, every command word except RST and GET with a legal selector changes
nothing and returns `zext_32(ERR)`; illegal words do not overwrite the latched code. -/
def Obligations.GateIgnoresCommands : Prop :=
  ∀ s cw rest e, s.port = cw :: rest → s.err = some e → cw ≠ 0x0100 →
    (∀ q, decode cw ≠ .ok (.get q)) →
    step s = .next { s with port := rest, resp := some ((errField (some e)).setWidth 32) }

/-- R88: errors are precise. A command either completes with no error or changes ERR alone; in particular
a refused RUN has not touched the accumulator and a refused PUSH has written no byte; and after it no
command but RST and GET has any effect. -/
def Obligations.ErrorsArePrecise : Prop :=
  ∀ s t i e, s.err = none → exec i s = .next t → t.err = some e →
    (t.buf = s.buf ∧ t.len = s.len ∧ t.w = s.w ∧ t.acc = s.acc ∧ t.cy = s.cy ∧ t.blk = s.blk) ∧
    ∀ j, j ≠ .rst → ∃ u, exec j t = .next u ∧ u = { t with resp := u.resp }

/-- R89: the order of the checks. The error latch after a command is decided by the first that applies: RST
clears it; a legal GET leaves it; a latched error stays; an illegal word; then the command's own checks,
W = 0 before the length. -/
def Obligations.CheckOrder : Prop :=
  ∀ s cw rest, StateInv s → s.port = cw :: rest → ∃ t, step s = .next t ∧
    t.err = (match decode cw, s.err with
      | .ok .rst, _ => none
      | _, some e => some e
      | .error _, none => some .illegalCommand
      | .ok (.get _), none => none
      | .ok (.cfg w), none => if w = 8 ∨ w = 16 ∨ w = 32 then none else some .configurationError
      | .ok (.push _), none => if s.len = s.maxBytes then some .bufferOverflow else none
      | .ok .step, none | .ok .run, none =>
        match s.w with
        | none => some .configurationError
        | some w => if 8 * s.len % w.bits ≠ 0 then some .invalidInputLength else none)

/-- R90: the only way out of the error state is reset: a step that leaves it took the word 0x0100, and cleared
everything else with it, and that word always leaves it; hardware reset leaves the reset state. Errors do not
nest: otherwise the first code stays. -/
def Obligations.OnlyResetLeavesErrorState : Prop :=
  (∀ s t e, s.err = some e → step s = .next t →
    t.err = some e ∨
    ((∃ rest, s.port = 0x0100 :: rest) ∧ t.err = none ∧ t.len = 0 ∧ t.w = none ∧ t.acc = 0 ∧
      t.cy = false ∧ t.blk = 0)) ∧
  (∀ s cw rest, s.port = cw :: rest → cw = 0x0100 → ∃ t, step s = .next t ∧ t.err = none) ∧
  (∀ s, (hardwareReset s).err = none)

/-! ### The host's duties (70_reset_and_hazards.md) -/

/-- R97: with the filler bytes of the rule a raw line of n bytes is a whole number of blocks, none is added at
W = 8, at most 1 at W = 16 and 3 at W = 32, and padding again adds none. -/
def Obligations.PaddingMakesWholeBlocks : Prop :=
  (∀ n w, (n + padCount n w) % BlockWidth.bytes w = 0 ∧ padCount n w < w.bytes ∧
    padCount (n + padCount n w) w = 0) ∧
  (∀ n, padCount n .w8 = 0 ∧ padCount n .w16 ≤ 1 ∧ padCount n .w32 ≤ 3) ∧
  (∀ line w, (padded line w).length = line.length + padCount line.length w ∧
    padded (padded line w) w = padded line w)

/-- R98 with R97: a host that issues RST, CFG w, one PUSH per byte of the padded line and RUN, from whatever
state, is never answered an error when the line fits, and ends where its test passes and GET SUM is the source's
checksum of the padded line. For every line and every width. -/
def Obligations.HostProtocolGivesChecksum : Prop :=
  ∀ s w line, (padded line w).length ≤ s.maxBytes → s.maxBytes < 2 ^ 28 →
    ∃ t, execAll (hostProtocol w line) s = .next t ∧ t.resp = some 0 ∧ hostTest t = true ∧
      inputRecord t = padded line w ∧
      (readout .sum t).toNat = (sourceSum w.bits (padded line w)).1 ∧
      (readout .len t).toNat = (padded line w).length

/-! ### A term that is no command -/

/-- The model's own choice (notes/assumptions/9.md, DEDUCED; no rule is cited): a term of GET with a selector above
3, which no word decodes to, does under `exec` what its illegal word does under `step`, and it is the only kind of
term that raises IllegalCommand. -/
def Obligations.IllFormedTermsActAsIllegalWords : Prop :=
  (∀ q : Byte, 4 ≤ q.toNat → (∀ cw, decode cw ≠ .ok (.get q)) ∧
    ∀ s rest, (s.err = none →
        exec (.get q) s = .next { s with err := some .illegalCommand, resp := some 5 }) ∧
      (∀ e, s.err = some e → exec (.get q) s = .next { s with resp := some (errWord (some e)) }) ∧
      step { s with port := encode (.get q) :: rest } = exec (.get q) { s with port := rest }) ∧
  (∀ s t i, s.err = none → exec i s = .next t → (t.err = some .illegalCommand ↔ i.wf = false))
end

