-- ==== Sys2Proof/Laws/Adder.lean ====
section
/-! SUPPORT. The laws of the end-around-carry adder that its callers use. -/

namespace Sys2Proof.Machine

/-- The sum of two W-bit numbers and a carry has at most W + 1 bits. -/
theorem sum_lt {w acc b : Nat} (cin : Bool) (ha : acc < 2 ^ w) (hb : b < 2 ^ w) :
    acc + b + cin.toNat < 2 * 2 ^ w := by
  have := cin.toNat_le
  omega

/-- The result has W bits whatever the operands. -/
theorem addEAC_fst_lt (w acc b : Nat) (cin : Bool) : (addEAC w acc b cin).1 < 2 ^ w :=
  Nat.mod_lt _ (Nat.two_pow_pos w)

/-- The carry out says whether the sum has reached 2^W. -/
theorem addEAC_snd {w acc b : Nat} (cin : Bool) (ha : acc < 2 ^ w) (hb : b < 2 ^ w) :
    (addEAC w acc b cin).2 = decide (2 ^ w ≤ acc + b + cin.toNat) := by
  have h := sum_lt cin ha hb
  simp only [addEAC, decide_eq_decide]
  constructor
  · intro h1
    by_contra hlt
    rw [Nat.div_eq_of_lt (by omega)] at h1
    omega
  · intro h1
    rw [Nat.div_eq_of_lt_le] <;> omega

/-- Nothing is lost within an addition. -/
theorem addEAC_exact {w acc b : Nat} (cin : Bool) (ha : acc < 2 ^ w) (hb : b < 2 ^ w) :
    (addEAC w acc b cin).1 + 2 ^ w * (addEAC w acc b cin).2.toNat = acc + b + cin.toNat := by
  have h := sum_lt cin ha hb
  rw [addEAC_snd cin ha hb]
  simp only [addEAC]
  by_cases hc : 2 ^ w ≤ acc + b + cin.toNat
  · have : (acc + b + cin.toNat) % 2 ^ w = acc + b + cin.toNat - 2 ^ w := by
      rw [Nat.mod_eq_sub_mod hc, Nat.mod_eq_of_lt (by omega)]
    simp only [hc, decide_true, Bool.toNat_true, this]
    omega
  · simp only [hc, decide_false, Bool.toNat_false]
    rw [Nat.mod_eq_of_lt (by omega)]
    omega

end Sys2Proof.Machine
end

