-- ==== Sys2Proof/Laws/Encoding.lean ====
section
/-! SUPPORT. The two fields of a command word: a word is its fields, and what each field of an encoded command
holds. -/

namespace Sys2Proof

/-- A word is its opcode above its operand (R39). -/
theorem word_split (cw : CmdWord) : cw = (opField cw ++ immField cw : BitVec 16) := by
  unfold opField immField
  apply BitVec.eq_of_getLsbD_eq
  intro i hi
  rw [BitVec.getLsbD_append]
  simp only [BitVec.getLsbD_extractLsb']
  by_cases h : i < 8
  · simp [h]
  · simp [h, show 8 + (i - 8) = i by omega, show i - 8 < 8 by omega]

@[simp] theorem opField_append (op imm : Byte) : opField (op ++ imm) = op := by
  rw [opField, BitVec.extractLsb'_append_eq_left]

@[simp] theorem immField_append (op imm : Byte) : immField (op ++ imm) = imm := by
  rw [immField, BitVec.extractLsb'_append_eq_right]

@[simp] theorem opField_encode (i : Instr) : opField (encode i) = opcodeOf i := opField_append _ _

@[simp] theorem immField_encode (i : Instr) : immField (encode i) = operandOf i := immField_append _ _

/-- A mask of 0xFF00 looks at the opcode alone (R41). -/
theorem and_mask_op (op imm : Byte) : (op ++ imm : BitVec 16) &&& 0xFF00 = (op ++ 0#8 : BitVec 16) := by
  rw [show (0xFF00 : BitVec 16) = (0xFF#8 ++ 0#8 : BitVec 16) from rfl, BitVec.and_append,
    show (0xFF#8) = BitVec.allOnes 8 from rfl, BitVec.and_allOnes]
  simp

/-- A mask of 0xFFFF looks at the whole word (R41). -/
theorem and_mask_word (cw : CmdWord) : cw &&& 0xFFFF = cw := by
  rw [show (0xFFFF : BitVec 16) = BitVec.allOnes 16 from rfl, BitVec.and_allOnes]

end Sys2Proof
end

