-- ==== Sys2Proof/Laws/State.lean ====
section
/-! SUPPORT. One lemma per field per named update of the state, so that no proof unfolds an update. -/

namespace Sys2Proof.Machine

variable (s : State) (r : RespWord) (e : ErrorKind)

/-! ### respond -/

@[simp] theorem respond_buf : (respond r s).buf = s.buf := rfl
@[simp] theorem respond_len : (respond r s).len = s.len := rfl
@[simp] theorem respond_w : (respond r s).w = s.w := rfl
@[simp] theorem respond_acc : (respond r s).acc = s.acc := rfl
@[simp] theorem respond_cy : (respond r s).cy = s.cy := rfl
@[simp] theorem respond_blk : (respond r s).blk = s.blk := rfl
@[simp] theorem respond_err : (respond r s).err = s.err := rfl
@[simp] theorem respond_maxBytes : (respond r s).maxBytes = s.maxBytes := rfl
@[simp] theorem respond_port : (respond r s).port = s.port := rfl
@[simp] theorem respond_resp : (respond r s).resp = some r := rfl

/-! ### respondErr -/

@[simp] theorem respondErr_buf : (respondErr s).buf = s.buf := rfl
@[simp] theorem respondErr_len : (respondErr s).len = s.len := rfl
@[simp] theorem respondErr_w : (respondErr s).w = s.w := rfl
@[simp] theorem respondErr_acc : (respondErr s).acc = s.acc := rfl
@[simp] theorem respondErr_cy : (respondErr s).cy = s.cy := rfl
@[simp] theorem respondErr_blk : (respondErr s).blk = s.blk := rfl
@[simp] theorem respondErr_err : (respondErr s).err = s.err := rfl
@[simp] theorem respondErr_maxBytes : (respondErr s).maxBytes = s.maxBytes := rfl
@[simp] theorem respondErr_port : (respondErr s).port = s.port := rfl
@[simp] theorem respondErr_resp : (respondErr s).resp = some (errWord s.err) := rfl

/-! ### clearAll -/

@[simp] theorem clearAll_buf : (clearAll s).buf = s.buf := rfl
@[simp] theorem clearAll_len : (clearAll s).len = 0 := rfl
@[simp] theorem clearAll_w : (clearAll s).w = none := rfl
@[simp] theorem clearAll_acc : (clearAll s).acc = 0 := rfl
@[simp] theorem clearAll_cy : (clearAll s).cy = false := rfl
@[simp] theorem clearAll_blk : (clearAll s).blk = 0 := rfl
@[simp] theorem clearAll_err : (clearAll s).err = none := rfl
@[simp] theorem clearAll_maxBytes : (clearAll s).maxBytes = s.maxBytes := rfl
@[simp] theorem clearAll_port : (clearAll s).port = s.port := rfl
@[simp] theorem clearAll_resp : (clearAll s).resp = s.resp := rfl

/-! ### raiseError -/

theorem raiseError_of_none (h : s.err = none) : raiseError e s = { s with err := some e } := by
  simp [raiseError, h]

theorem raiseError_of_some {e' : ErrorKind} (h : s.err = some e') : raiseError e s = s := by
  simp [raiseError, h]

@[simp] theorem raiseError_buf : (raiseError e s).buf = s.buf := by unfold raiseError; split <;> rfl
@[simp] theorem raiseError_len : (raiseError e s).len = s.len := by unfold raiseError; split <;> rfl
@[simp] theorem raiseError_w : (raiseError e s).w = s.w := by unfold raiseError; split <;> rfl
@[simp] theorem raiseError_acc : (raiseError e s).acc = s.acc := by unfold raiseError; split <;> rfl
@[simp] theorem raiseError_cy : (raiseError e s).cy = s.cy := by unfold raiseError; split <;> rfl
@[simp] theorem raiseError_blk : (raiseError e s).blk = s.blk := by unfold raiseError; split <;> rfl
@[simp] theorem raiseError_maxBytes : (raiseError e s).maxBytes = s.maxBytes := by
  unfold raiseError; split <;> rfl
@[simp] theorem raiseError_port : (raiseError e s).port = s.port := by unfold raiseError; split <;> rfl
@[simp] theorem raiseError_resp : (raiseError e s).resp = s.resp := by unfold raiseError; split <;> rfl

/-! ### withFetchWord -/

@[simp] theorem withFetchWord_port (n w : Nat) :
    (s.withFetchWord n w).port = tableWord n w :: s.port := rfl
@[simp] theorem withFetchWord_buf (n w : Nat) : (s.withFetchWord n w).buf = s.buf := rfl
@[simp] theorem withFetchWord_err (n w : Nat) : (s.withFetchWord n w).err = s.err := rfl

/-! ### The derived views do not see the response, the port, or what they do not read -/

@[simp] theorem byteAt_respond (a : Nat) : byteAt (respond r s) a = byteAt s a := rfl
@[simp] theorem byteAt_respondErr (a : Nat) : byteAt (respondErr s) a = byteAt s a := rfl
@[simp] theorem byteAt_clearAll (a : Nat) : byteAt (clearAll s) a = byteAt s a := rfl
@[simp] theorem byteAt_raiseError (a : Nat) : byteAt (raiseError e s) a = byteAt s a := by
  simp [byteAt]

@[simp] theorem statusWord_respond : statusWord (respond r s) = statusWord s := rfl
@[simp] theorem statusWord_respondErr : statusWord (respondErr s) = statusWord s := rfl
@[simp] theorem done_respond : done (respond r s) = done s := rfl
@[simp] theorem done_respondErr : done (respondErr s) = done s := rfl

end Sys2Proof.Machine
end

