-- ==== Sys2Proof/Laws/Ops.lean ====
section
/-! SUPPORT. What each shared operation can do, said once. -/

namespace Sys2Proof.Machine

/-! ### The gate and the error entry -/

/-- The gate open: with ERR = 0 the command does what its own text says. -/
theorem gated_of_none {s : State} (o : Out) (h : s.err = none) : gated s o = o := by
  simp [gated, h]

/-- The gate closed: a latched error, and the command changes nothing but the response. -/
theorem gated_of_some {s : State} {e : ErrorKind} (o : Out) (h : s.err = some e) :
    gated s o = .next { s with resp := some (errWord (some e)) } := by
  simp [gated, h, respondErr, respond]

/-- A command that raises an error, from ERR = 0: ERR and the response, nothing else. -/
theorem refuseWith_of_none {s : State} (e : ErrorKind) (h : s.err = none) :
    refuseWith e s = .next { s with err := some e, resp := some (errWord (some e)) } := by
  simp [refuseWith, raiseError_of_none s e h, respondErr, respond]

/-- What a word of the ILLEGAL class does. -/
theorem execIllegal_of_none {s : State} (h : s.err = none) :
    execIllegal s = .next { s with err := some .illegalCommand, resp := some 5 } := by
  rw [execIllegal, gated_of_none _ h, refuseWith_of_none _ h]; rfl

theorem execIllegal_of_some {s : State} {e : ErrorKind} (h : s.err = some e) :
    execIllegal s = .next { s with resp := some (errWord (some e)) } :=
  gated_of_some _ h

@[simp] theorem errWord_none : errWord none = 0 := rfl

/-! ### The address check -/

/-- A read is allowed exactly when every index exists and holds a value. -/
theorem checkRead_eq_none {s : State} {lo n : Nat} :
    checkRead s lo n = none ↔
      lo + n ≤ s.maxBytes ∧ ∀ i, i < n → (s.buf.read (lo + i)).isSome = true := by
  unfold checkRead
  by_cases h : s.maxBytes < lo + n
  · simp only [if_pos h]
    exact ⟨fun h => by simp at h, fun h' => absurd h'.1 (by omega)⟩
  · rw [if_neg h]
    simp only [ite_eq_left_iff, List.all_eq_true, List.mem_range, reduceCtorEq, imp_false,
      Decidable.not_not]
    exact ⟨fun h' => ⟨by omega, h'⟩, fun h' => h'.2⟩

/-- The address check does not see the registers. -/
theorem checkRead_congr {s t : State} (hb : t.buf = s.buf) (hm : t.maxBytes = s.maxBytes) (lo n : Nat) :
    checkRead t lo n = checkRead s lo n := by
  simp only [checkRead, hb, hm]

/-! ### The command port -/

theorem takeCommand_nil {s : State} (h : s.port = []) : takeCommand s = none := by
  simp [takeCommand, h]

theorem takeCommand_cons {s : State} {cw : CmdWord} {rest : List CmdWord} (h : s.port = cw :: rest) :
    takeCommand s = some (cw, { s with port := rest }) := by
  simp [takeCommand, h]

end Sys2Proof.Machine
end

