-- ==== Sys2Proof/Laws/Views.lean ====
section
/-! SUPPORT. The laws of the bit-picker, the block multiplexer and the sum over the blocks: which part of
the state each depends on, and its bounds. -/

namespace Sys2Proof.Machine

theorem BlockWidth.bits_pos (w : BlockWidth) : 0 < w.bits := by cases w <;> decide

/-- W is 8 times its bytes. -/
theorem BlockWidth.bits_eq (w : BlockWidth) : w.bits = 8 * w.bytes := by cases w <;> rfl

theorem BlockWidth.bytes_pos (w : BlockWidth) : 0 < w.bytes := by cases w <;> decide

theorem wholeBlocks_iff {s : State} {w : BlockWidth} :
    wholeBlocks s w = true ↔ 8 * s.len % w.bits = 0 := by simp [wholeBlocks]

theorem allAdded_iff {s : State} {w : BlockWidth} :
    allAdded s w = true ↔ s.blk * w.bits = 8 * s.len := by simp [allAdded]

/-- A sum of bits, each at a weight of its own below 2^n, is below 2^n. -/
theorem bits_sum_lt (f : Nat → Bool) (n : Nat) :
    ((List.range n).map fun j => (f j).toNat * 2 ^ (n - 1 - j)).sum < 2 ^ n := by
  suffices h : ∀ n, ((List.range n).map fun j => (f j).toNat * 2 ^ (n - 1 - j)).sum + 1 ≤ 2 ^ n from h n
  intro n
  induction n with
  | zero => simp
  | succ n ih =>
    rw [List.range_succ, List.map_append, List.sum_append]
    have h2 : ((List.range n).map fun j => (f j).toNat * 2 ^ (n + 1 - 1 - j)).sum
        = 2 * ((List.range n).map fun j => (f j).toNat * 2 ^ (n - 1 - j)).sum := by
      rw [← List.sum_map_mul_left]
      congr 1
      apply List.map_congr_left
      intro j hj
      rw [List.mem_range] at hj
      have : n + 1 - 1 - j = (n - 1 - j) + 1 := by omega
      rw [this, Nat.pow_succ]
      ring
    rw [h2]
    have := (f n).toNat_le
    simp only [List.map_cons, List.map_nil, List.sum_cons, List.sum_nil, Nat.pow_succ]
    have h3 : n + 1 - 1 - n = 0 := by omega
    rw [h3]
    omega

/-- A block has W bits (R58). -/
theorem blockAt_lt (s : State) (w : BlockWidth) (k : Nat) : blockAt s w k < 2 ^ w.bits :=
  bits_sum_lt _ _

/-- The accumulator of a sum has W bits. -/
theorem sumBlocks_fst_lt (s : State) (w : BlockWidth) (n : Nat) : (sumBlocks s w n).1 < 2 ^ w.bits := by
  cases n with
  | zero => exact Nat.two_pow_pos _
  | succ n => exact addEAC_fst_lt _ _ _ _

theorem sumBlocks_succ (s : State) (w : BlockWidth) (n : Nat) :
    sumBlocks s w (n + 1) = addEAC w.bits (sumBlocks s w n).1 (blockAt s w n) (sumBlocks s w n).2 := rfl

/-- A block depends on its own bytes of BUF alone (R59). -/
theorem blockAt_congr {s t : State} (w : BlockWidth) (k : Nat)
    (h : ∀ a, k * w.bytes ≤ a → a < k * w.bytes + w.bytes → t.buf.read a = s.buf.read a) :
    blockAt t w k = blockAt s w k := by
  unfold blockAt
  congr 1
  apply List.map_congr_left
  intro j hj
  rw [List.mem_range, BlockWidth.bits_eq] at hj
  have hb := w.bytes_pos
  have : (k * w.bits + j) / 8 = k * w.bytes + j / 8 := by
    rw [BlockWidth.bits_eq, show k * (8 * w.bytes) = 8 * (k * w.bytes) by ring]; omega
  have hr := h (k * w.bytes + j / 8) (by omega) (by omega)
  simp only [bitAt, byteAt, this, hr]

/-- A sum over n blocks depends on their bytes of BUF alone. -/
theorem sumBlocks_congr {s t : State} (w : BlockWidth) (n : Nat)
    (h : ∀ a, a < n * w.bytes → t.buf.read a = s.buf.read a) :
    sumBlocks t w n = sumBlocks s w n := by
  induction n with
  | zero => rfl
  | succ n ih =>
    rw [Nat.succ_mul] at h
    rw [sumBlocks_succ, sumBlocks_succ, ih fun a ha => h a (by omega),
      blockAt_congr w n fun a _ ha => h a ha]

/-- The sum does not see the registers. -/
theorem sumBlocks_of_buf {s t : State} (h : t.buf = s.buf) (w : BlockWidth) (n : Nat) :
    sumBlocks t w n = sumBlocks s w n :=
  sumBlocks_congr w n fun _ _ => by rw [h]

/-- `(a, c)` as a register pair: writing the sum into ACC loses nothing. -/
theorem toNat_ofNat_sum (s : State) (w : BlockWidth) (n : Nat) :
    (BitVec.ofNat 32 (sumBlocks s w n).1).toNat = (sumBlocks s w n).1 := by
  rw [BitVec.toNat_ofNat, Nat.mod_eq_of_lt]
  exact Nat.lt_of_lt_of_le (sumBlocks_fst_lt s w n) (Nat.pow_le_pow_right (by decide) (by cases w <;> decide))

/-- In a whole record the blocks are LEN div (W div 8). -/
theorem numBlocks_mul {s : State} {w : BlockWidth} (h : 8 * s.len % w.bits = 0) :
    numBlocks s w * w.bits = 8 * s.len :=
  Nat.div_mul_cancel (Nat.dvd_of_mod_eq_zero h)

/-- The bytes of the NBLK blocks are exactly those below LEN. -/
theorem numBlocks_mul_bytes {s : State} {w : BlockWidth} (h : 8 * s.len % w.bits = 0) :
    numBlocks s w * w.bytes = s.len := by
  have h' := numBlocks_mul h
  rw [BlockWidth.bits_eq, show numBlocks s w * (8 * w.bytes) = 8 * (numBlocks s w * w.bytes) by ring] at h'
  omega

end Sys2Proof.Machine
end

