-- ==== Sys2Proof/Laws/Exec.lean ====
section
/-! SUPPORT. Everything each command can do, one lemma per command: from a closed gate, from an error, and
with its own effect. Later proofs cite these and unfold no meaning. -/

namespace Sys2Proof.Machine

/-- RST has one effect, from every state. -/
theorem execRst_eq (s : State) : execRst s = .next { s with
    len := 0, w := none, acc := 0, cy := false, blk := 0, err := none, resp := some 0 } := rfl

/-- Everything CFG can do. -/
theorem execCfg_cases (w : Byte) (s : State) :
    (∃ e, s.err = some e ∧ execCfg w s = .next { s with resp := some (errWord (some e)) }) ∨
    (s.err = none ∧ widthOperand w = none ∧
      execCfg w s = .next { s with err := some .configurationError, resp := some 1 }) ∨
    (∃ bw, s.err = none ∧ widthOperand w = some bw ∧
      execCfg w s = .next { s with w := some bw, acc := 0, cy := false, blk := 0, resp := some 0 }) := by
  obtain he | ⟨e, he⟩ := s.err.eq_none_or_eq_some
  · right
    rw [execCfg, gated_of_none _ he]
    cases hw : widthOperand w with
    | none => exact .inl ⟨he, rfl, refuseWith_of_none _ he⟩
    | some bw => exact .inr ⟨bw, he, rfl, by simp [respondErr, respond, he]⟩
  · exact .inl ⟨e, he, gated_of_some _ he⟩

/-- Everything PUSH can do. -/
theorem execPush_cases (b : Byte) (s : State) :
    (∃ e, s.err = some e ∧ execPush b s = .next { s with resp := some (errWord (some e)) }) ∨
    (s.err = none ∧ s.len = s.maxBytes ∧
      execPush b s = .next { s with err := some .bufferOverflow, resp := some 4 }) ∨
    (s.err = none ∧ s.maxBytes < s.len ∧ execPush b s = .fault .outsideBuffer) ∨
    (s.err = none ∧ s.len < s.maxBytes ∧
      execPush b s = .next { s with buf := s.buf.write s.len b, len := s.len + 1, resp := some 0 }) := by
  obtain he | ⟨e, he⟩ := s.err.eq_none_or_eq_some
  · right
    rw [execPush, gated_of_none _ he]
    rcases Nat.lt_trichotomy s.len s.maxBytes with h | h | h
    · refine .inr (.inr ⟨he, h, ?_⟩)
      rw [if_neg (by omega), if_neg (by simp only [pushAddr]; omega)]
      simp [respondErr, respond, he, pushAddr]
    · exact .inl ⟨he, h, by rw [if_pos h]; exact refuseWith_of_none _ he⟩
    · exact .inr (.inl ⟨he, h, by rw [if_neg (by omega), if_pos (by simp only [pushAddr]; omega)]⟩)
  · exact .inl ⟨e, he, gated_of_some _ he⟩

/-- Everything STEP can do. -/
theorem execStep_cases (s : State) :
    (∃ e, s.err = some e ∧ execStep s = .next { s with resp := some (errWord (some e)) }) ∨
    (s.err = none ∧ s.w = none ∧
      execStep s = .next { s with err := some .configurationError, resp := some 1 }) ∨
    (∃ w, s.err = none ∧ s.w = some w ∧ 8 * s.len % w.bits ≠ 0 ∧
      execStep s = .next { s with err := some .invalidInputLength, resp := some 3 }) ∨
    (∃ w, s.err = none ∧ s.w = some w ∧ 8 * s.len % w.bits = 0 ∧ s.blk * w.bits = 8 * s.len ∧
      execStep s = .next { s with resp := some 0 }) ∨
    (∃ w f, s.err = none ∧ s.w = some w ∧ 8 * s.len % w.bits = 0 ∧ s.blk * w.bits ≠ 8 * s.len ∧
      checkRead s (s.blk * w.bytes) w.bytes = some f ∧ execStep s = .fault f) ∨
    (∃ w, s.err = none ∧ s.w = some w ∧ 8 * s.len % w.bits = 0 ∧ s.blk * w.bits ≠ 8 * s.len ∧
      checkRead s (s.blk * w.bytes) w.bytes = none ∧
      execStep s = .next { s with
        acc := BitVec.ofNat 32 (addEAC w.bits (s.acc.toNat % 2 ^ w.bits) (blockAt s w s.blk) s.cy).1
        cy := (addEAC w.bits (s.acc.toNat % 2 ^ w.bits) (blockAt s w s.blk) s.cy).2
        blk := s.blk + 1
        resp := some 0 }) := by
  obtain he | ⟨e, he⟩ := s.err.eq_none_or_eq_some
  · right
    rw [execStep, gated_of_none _ he]
    obtain hw | ⟨w, hw⟩ := s.w.eq_none_or_eq_some
    · exact .inl ⟨he, hw, by simp only [hw]; rw [refuseWith_of_none _ he]; simp [hw, errWord, errField]⟩
    · right
      simp only [hw]
      by_cases hl : 8 * s.len % w.bits = 0
      · right
        rw [if_neg (by simp [wholeBlocks_iff.2 hl])]
        by_cases hb : s.blk * w.bits = 8 * s.len
        · exact .inl ⟨w, he, rfl, hl, hb, by rw [if_pos (allAdded_iff.2 hb)]; simp [respondErr, respond, he, hw]⟩
        · right
          rw [if_neg fun h => hb (allAdded_iff.1 h)]
          cases hc : checkRead s (s.blk * w.bytes) w.bytes with
          | some f => exact .inl ⟨w, f, he, rfl, hl, hb, hc, rfl⟩
          | none => exact .inr ⟨w, he, rfl, hl, hb, hc, by simp [respondErr, respond, he]⟩
      · refine .inl ⟨w, he, rfl, hl, ?_⟩
        rw [if_pos (by simp [wholeBlocks, hl]), refuseWith_of_none _ he]
        simp [hw, errWord, errField]
  · exact .inl ⟨e, he, gated_of_some _ he⟩

/-- Everything RUN can do. -/
theorem execRun_cases (s : State) :
    (∃ e, s.err = some e ∧ execRun s = .next { s with resp := some (errWord (some e)) }) ∨
    (s.err = none ∧ s.w = none ∧
      execRun s = .next { s with err := some .configurationError, resp := some 1 }) ∨
    (∃ w, s.err = none ∧ s.w = some w ∧ 8 * s.len % w.bits ≠ 0 ∧
      execRun s = .next { s with err := some .invalidInputLength, resp := some 3 }) ∨
    (∃ w f, s.err = none ∧ s.w = some w ∧ 8 * s.len % w.bits = 0 ∧
      checkRead s 0 s.len = some f ∧ execRun s = .fault f) ∨
    (∃ w, s.err = none ∧ s.w = some w ∧ 8 * s.len % w.bits = 0 ∧ checkRead s 0 s.len = none ∧
      execRun s = .next { s with
        acc := BitVec.ofNat 32 (sumBlocks s w (numBlocks s w)).1
        cy := (sumBlocks s w (numBlocks s w)).2
        blk := numBlocks s w
        resp := some 0 }) := by
  obtain he | ⟨e, he⟩ := s.err.eq_none_or_eq_some
  · right
    rw [execRun, gated_of_none _ he]
    obtain hw | ⟨w, hw⟩ := s.w.eq_none_or_eq_some
    · exact .inl ⟨he, hw, by simp only [hw]; rw [refuseWith_of_none _ he]; simp [hw, errWord, errField]⟩
    · right
      simp only [hw]
      by_cases hl : 8 * s.len % w.bits = 0
      · right
        rw [if_neg (by simp [wholeBlocks_iff.2 hl])]
        cases hc : checkRead s 0 s.len with
        | some f => exact .inl ⟨w, f, he, rfl, hl, rfl, rfl⟩
        | none => exact .inr ⟨w, he, rfl, hl, rfl, by simp [respondErr, respond, he]⟩
      · refine .inl ⟨w, he, rfl, hl, ?_⟩
        rw [if_pos (by simp [wholeBlocks, hl]), refuseWith_of_none _ he]
        simp [hw, errWord, errField]
  · exact .inl ⟨e, he, gated_of_some _ he⟩

/-- A selector is legal exactly when it is at most 3. -/
theorem selectorOperand_isSome (q : Byte) : (selectorOperand q).isSome = decide (q.toNat ≤ 3) := by
  revert q; decide

/-- Everything GET can do. -/
theorem execGet_cases (q : Byte) (s : State) :
    (∃ sel, selectorOperand q = some sel ∧ execGet q s = .next { s with resp := some (readout sel s) }) ∨
    (∃ e, selectorOperand q = none ∧ s.err = some e ∧
      execGet q s = .next { s with resp := some (errWord (some e)) }) ∨
    (selectorOperand q = none ∧ s.err = none ∧
      execGet q s = .next { s with err := some .illegalCommand, resp := some 5 }) := by
  obtain hq | ⟨sel, hq⟩ := (selectorOperand q).eq_none_or_eq_some
  · right
    simp only [execGet, hq]
    obtain he | ⟨e, he⟩ := s.err.eq_none_or_eq_some
    · exact .inr ⟨trivial, he, execIllegal_of_none he⟩
    · exact .inl ⟨e, trivial, he, execIllegal_of_some he⟩
  · exact .inl ⟨sel, hq, by simp [execGet, hq, respond]⟩

/-- Everything a step can do: wait, execute the command its word decodes to, or answer an illegal word. -/
theorem step_cases (s : State) :
    (s.port = [] ∧ step s = .next s) ∨
    (∃ cw rest i, s.port = cw :: rest ∧ decode cw = .ok i ∧ step s = exec i { s with port := rest }) ∨
    (∃ cw rest x, s.port = cw :: rest ∧ decode cw = .error x ∧
      step s = execIllegal { s with port := rest }) := by
  cases hp : s.port with
  | nil => exact .inl ⟨rfl, by simp [step, takeCommand_nil hp, idle]⟩
  | cons cw rest =>
    right
    cases hd : decode cw with
    | ok i => exact .inl ⟨cw, rest, i, rfl, hd, by simp [step, takeCommand_cons hp, hd]⟩
    | error x => exact .inr ⟨cw, rest, x, rfl, hd, by simp [step, takeCommand_cons hp, hd]⟩

/-- A run whose first step answers a next state goes on from it. -/
theorem run_succ_of_next (k : Nat) {s t : State} (h : step s = .next t) :
    Host.Core.run core (k + 1) s = Host.Core.run core k t := by
  have h' : core.step s = .next t := h
  simp [Host.Core.run, h']

/-- A sequence whose first command answers a next state goes on from it. -/
theorem execAll_cons_of_next {i : Instr} {is : List Instr} {s t : State} (h : exec i s = .next t) :
    execAll (i :: is) s = execAll is t := by
  simp [execAll, h]

/-- Two sequences one after the other. -/
theorem execAll_append_of_next {is js : List Instr} {s t : State} (h : execAll is s = .next t) :
    execAll (is ++ js) s = execAll js t := by
  induction is generalizing s with
  | nil => simp only [execAll, Host.Outcome.next.injEq] at h; subst h; rfl
  | cons i is ih =>
    cases hi : exec i s with
    | next u =>
      rw [execAll_cons_of_next hi] at h
      rw [List.cons_append, execAll_cons_of_next hi, ih h]
    | fault f => simp [execAll, hi] at h
    | refused r => simp [execAll, hi] at h

end Sys2Proof.Machine
end

