-- ==== Sys2Proof/Laws/Invariants.lean ====
section
/-! SUPPORT. What the invariants of rule R22 give a later proof, and that they depend on the registers they
name alone. -/

namespace Sys2Proof

open Sys2Proof.Machine

/-- The three widths and their bytes. -/
theorem BlockWidth.cases_bits (w : BlockWidth) :
    (w.bits = 8 ∧ w.bytes = 1) ∨ (w.bits = 16 ∧ w.bytes = 2) ∨ (w.bits = 32 ∧ w.bytes = 4) := by
  cases w <;> simp [BlockWidth.bits, BlockWidth.bytes, Config.bitsPerByte]

/-- DONE at a configured width (R18). -/
theorem done_iff {s : State} {w : BlockWidth} (h : s.w = some w) :
    done s = true ↔ s.blk * w.bits = 8 * s.len := by
  simp [done, h, allAdded]

/-- The invariants do not see ERR, the command port or the response. -/
theorem StateInv.of_eq {s t : State} (h : StateInv s) (hb : t.buf = s.buf) (hl : t.len = s.len) (hw : t.w = s.w)
    (ha : t.acc = s.acc) (hc : t.cy = s.cy) (hk : t.blk = s.blk) (hm : t.maxBytes = s.maxBytes) :
    StateInv t := by
  obtain ⟨h1, h2, h3, h4, h5, h6, h7, h8⟩ := h
  constructor <;> simp only [hb, hl, hw, ha, hc, hk, hm] <;> assumption

/-- A read within the record is allowed (R28). -/
theorem StateInv.checkRead_eq_none {s : State} (h : StateInv s) {lo n : Nat} (hl : lo + n ≤ s.len) :
    checkRead s lo n = none := by
  have := h.lenBound
  exact Machine.checkRead_eq_none.2 ⟨by omega, fun i hi => h.recordWritten _ (by omega)⟩

/-- Where a block is left, it is all within the record (R67). -/
theorem StateInv.room {s : State} {w : BlockWidth} (h : StateInv s) (hw : s.w = some w)
    (hl : 8 * s.len % w.bits = 0) (hb : s.blk * w.bits ≠ 8 * s.len) :
    s.blk * w.bytes + w.bytes ≤ s.len ∧ (s.blk + 1) * w.bits ≤ 8 * s.len := by
  have hk := h.blkBound w hw
  have hn := numBlocks_mul hl
  have hlt : s.blk < numBlocks s w :=
    Nat.lt_of_mul_lt_mul_right (a := w.bits) (by omega)
  have h4 : (s.blk + 1) * w.bytes ≤ numBlocks s w * w.bytes := Nat.mul_le_mul_right _ hlt
  rw [numBlocks_mul_bytes hl, Nat.succ_mul] at h4
  exact ⟨h4, hn ▸ Nat.mul_le_mul_right _ hlt⟩

/-- The partial sum sees the registers it names and the bytes of the blocks added so far. -/
theorem PartialSum.of_eq {s t : State} (h : PartialSum s) (hw : t.w = s.w) (ha : t.acc = s.acc)
    (hc : t.cy = s.cy) (hk : t.blk = s.blk)
    (hb : ∀ w, s.w = some w → ∀ a, a < s.blk * w.bytes → t.buf.read a = s.buf.read a) : PartialSum t := by
  intro w hh
  rw [hw] at hh
  rw [ha, hc, hk, sumBlocks_congr w _ (hb w hh)]
  exact h w hh

end Sys2Proof
end

