-- ==== Sys2Proof/Laws/PerInstr.lean ====
section
/-! SUPPORT. A statement about every command as syntax, one lemma per constructor. -/

namespace Sys2Proof.Laws

/-- The word of a command matches the command's own row of rule R41. -/
def EncodesInRow.Statement (i : Instr) : Prop := (rowOf i).matches (encode i) = true

theorem EncodesInRow.rst : EncodesInRow.Statement .rst := rfl

theorem EncodesInRow.cfg (w : Byte) : EncodesInRow.Statement (.cfg w) :=
  beq_iff_eq.2 (and_mask_op (0x02#8) w)

theorem EncodesInRow.push (b : Byte) : EncodesInRow.Statement (.push b) :=
  beq_iff_eq.2 (and_mask_op (0x03#8) b)

theorem EncodesInRow.step : EncodesInRow.Statement .step := rfl

theorem EncodesInRow.run : EncodesInRow.Statement .run := rfl

theorem EncodesInRow.get (s : Byte) : EncodesInRow.Statement (.get s) :=
  beq_iff_eq.2 (and_mask_op (0x06#8) s)

end Sys2Proof.Laws
end

