-- ==== Sys2Proof/Tests/Slice0.lean ====
section
/-! SUPPORT. Tests whose expected results are the spec's own words and vectors (95_test_vectors.md and the
examples of the rules), and a witness for the hypotheses of every statement. -/

namespace Sys2Proof.Tests

open Sys2Proof Sys2Proof.Machine

/-! ### Small states and helpers -/

/-- The state an answer holds, `none` for a fault or a refusal. -/
def after : Out → Option State
  | .next t => some t
  | _ => none

/-- A unit whose record is the given bytes, at a width, with nothing added yet. -/
def loaded (w : Option BlockWidth) (bytes : List Byte) : State :=
  { State.reset with buf := (List.range bytes.length).zip bytes, len := bytes.length, w := w }

/-- P2 after its first STEP: 41 42 0A 58 at width 16, one block added. -/
def sampleMid : State := { loaded (some .w16) [0x41, 0x42, 0x0A, 0x58] with acc := 0x4142, blk := 1 }

/-- P3 after its second STEP: FF 02 at width 8, both blocks added, a carry latched. -/
def sampleDone : State := { loaded (some .w8) [0xFF, 0x02] with acc := 0x01, cy := true, blk := 2 }

/-- P5 before its first RUN: three bytes at width 32, no whole number of blocks. -/
def sampleBad : State := loaded (some .w32) [0x41, 0x42, 0x0A]

/-- P5 after its first RUN: InvalidInputLength latched. -/
def sampleErr : State := { sampleBad with err := some .invalidInputLength }

/-- E14 before its last PUSH: MAXBYTES = 2 and two bytes loaded. -/
def sampleFull : State := { loaded (some .w8) [0x01, 0x02] with maxBytes := 2 }

/-- A zero record of one block at width 32. -/
def sampleZero : State := loaded (some .w32) [0, 0, 0, 0]

theorem sampleMid_inv : StateInv sampleMid :=
  ⟨by decide, by rintro w ⟨⟩; decide, by decide, by rintro w ⟨⟩; decide, by decide, by decide, by decide,
    by decide⟩

theorem sampleDone_inv : StateInv sampleDone :=
  ⟨by decide, by rintro w ⟨⟩; decide, by decide, by rintro w ⟨⟩; decide, by decide, by decide, by decide,
    by decide⟩

theorem sampleBad_inv : StateInv sampleBad :=
  ⟨by decide, by rintro w ⟨⟩; decide, by decide, by rintro w ⟨⟩; decide, by decide, by decide, by decide,
    by decide⟩

theorem sampleFull_inv : StateInv sampleFull :=
  ⟨by decide, by rintro w ⟨⟩; decide, by decide, by rintro w ⟨⟩; decide, by decide, by decide, by decide,
    by decide⟩

theorem sampleZero_inv : StateInv sampleZero :=
  ⟨by decide, by rintro w ⟨⟩; decide, by decide, by rintro w ⟨⟩; decide, by decide, by decide, by decide,
    by decide⟩

theorem reset_inv : StateInv State.reset :=
  ⟨by decide, by rintro w ⟨⟩, by decide, by rintro w ⟨⟩, by decide, by decide, by decide, by decide⟩

theorem sampleMid_partialSum : PartialSum sampleMid := by rintro w ⟨⟩; decide

theorem sampleDone_partialSum : PartialSum sampleDone := by rintro w ⟨⟩; decide

/-! ### WellFormed: each check refuses an ill-formed term -/

/-- R76: a selector of 4, the least that is none. -/
theorem test_wf_refuses_selector_4 : (Instr.get 4).wf = false := by decide

/-- R76: a selector of 255, the greatest. -/
theorem test_wf_refuses_selector_255 : (Instr.get 0xFF).wf = false := by decide

/-- R76: a selector of 3 is well-formed; so is an illegal width (R42: "all 256 operand values decode as CFG"). -/
theorem test_wf_accepts : (Instr.get 3).wf = true ∧ (Instr.cfg 24).wf = true := by decide

/-! ### Decoding: the words of R41 written out bit by bit -/

theorem test_decode_rst : decode 0b0000000100000000 = .ok .rst := rfl

/-- The operand 0010_0000 is 32. -/
theorem test_decode_cfg : decode 0b0000001000100000 = .ok (.cfg 32) := rfl

/-- The operand 0100_0001 is 0x41, the byte 'A'. -/
theorem test_decode_push : decode 0b0000001101000001 = .ok (.push 0x41) := rfl

theorem test_decode_step : decode 0b0000010000000000 = .ok .step := rfl

theorem test_decode_run : decode 0b0000010100000000 = .ok .run := rfl

theorem test_decode_get : decode 0b0000011000000011 = .ok (.get 3) := rfl

/-- 95_test_vectors.md section 2.1: the ILLEGAL words of its table. -/
theorem test_decode_illegal :
    ([0x0101, 0x01FF, 0x0401, 0x0580, 0x0604, 0x06FF, 0x0000, 0x0001, 0x0700, 0x8000, 0xFFFF].all
      fun cw => (decode cw).toOption.isNone) = true := by decide

/-- 95_test_vectors.md section 2.1: the operands of its CFG and PUSH words. -/
theorem test_decode_operands :
    ([0x0200, 0x0208, 0x0210, 0x0218, 0x0220, 0x02FF].map fun cw => (decode cw).toOption) =
      [some (.cfg 0), some (.cfg 8), some (.cfg 16), some (.cfg 24), some (.cfg 32), some (.cfg 255)] ∧
    ([0x0300, 0x0358, 0x03FF].map fun cw => (decode cw).toOption) =
      [some (.push 0), some (.push 0x58), some (.push 0xFF)] := by decide

/-- The host's two functions on one row of the table: PUSH 0x41 is word 0x0341 and runs as the next step. -/
theorem test_fetch_word : decodeTableWord 16 0x0341 = some (.push 0x41) ∧
    (after (step (State.reset.withFetchWord 16 0x0341))).map (fun t => (t.len, t.resp)) = some (1, some 0) := by
  decide

/-! ### The adder, the bit-picker and the block multiplexer: vectors of 95_test_vectors.md -/

/-- Section 2.3, width 8: the absolute maximum, and a carry in that causes the carry out. -/
theorem test_adder_w8 : addEAC 8 0xFF 0xFF true = (0xFF, true) ∧ addEAC 8 0xFF 0x00 true = (0x00, true) ∧
    addEAC 8 0x7F 0x01 false = (0x80, false) := by decide

/-- Section 2.3, widths 16 and 32: a ripple below the top bit is no carry out. -/
theorem test_adder_wide : addEAC 16 0x00FF 0x0001 false = (0x0100, false) ∧
    addEAC 16 0x8000 0x8000 false = (0x0000, true) ∧
    addEAC 32 0x0000FFFF 0x00000001 false = (0x00010000, false) ∧
    addEAC 32 0xFFFFFFFF 0x00000001 false = (0x00000000, true) := by decide

/-- Section 2.3, the same by the bit-serial form of R65. -/
theorem test_adder_serial : rippleAdd 8 0xFF 0xFF true = (0xFF, true) ∧
    rippleAdd 16 0x4142 0x0A58 false = (0x4B9A, false) := by decide

/-- Vectors B2 and B3: bit(0) and bit(7) of 80 and of 01. -/
theorem test_bit_order : bitAt (loaded none [0x80]) 0 = true ∧ bitAt (loaded none [0x80]) 7 = false ∧
    bitAt (loaded none [0x01]) 0 = false ∧ bitAt (loaded none [0x01]) 7 = true := by decide

/-- Vectors B7, B8 and B9: the byte order of a block. -/
theorem test_block_order :
    blockAt (loaded none [0x12, 0x34, 0x56, 0x78, 0x9A, 0xBC, 0xDE, 0xF0]) .w32 1 = 0x9ABCDEF0 ∧
    blockAt (loaded none [0x00, 0x01]) .w16 0 = 0x0001 ∧
    blockAt (loaded none [0x80, 0x00]) .w16 0 = 0x8000 := by decide

/-- A write keeps the indices rising and replaces the byte that was there. -/
theorem test_memory_write : Memory.write [(0, 0x41), (2, 0x0A)] 1 0x42 = [(0, 0x41), (1, 0x42), (2, 0x0A)] ∧
    Memory.write [(0, 0x41)] 0 0x42 = [(0, 0x42)] := by decide

/-! ### One step of each command -/

/-- E15: RST in the error state, and STATUS after it. -/
theorem test_rst_clears_error :
    (after (exec .rst sampleErr)).map (fun t => (t.resp, t.err, t.len, statusWord t)) =
      some (some 0, none, 0, 0) := by decide

/-- E16: a refused CFG leaves W, ACC, CY and BLK. -/
theorem test_cfg_refused :
    (after (exec (.cfg 24) { loaded (some .w8) [0xF0, 0xF0] with acc := 0xE0, cy := true, blk := 2 })).map
      (fun t => (t.resp, t.w, t.acc, t.cy, t.blk)) = some (some 1, some .w8, 0xE0, true, 2) := by decide

/-- P6: CFG 16 clears ACC, CY and BLK and keeps the record; STATUS 0x00001000. -/
theorem test_cfg_restarts :
    (after (exec (.cfg 16) { loaded (some .w8) [0xF0, 0xF0] with acc := 0xE0, cy := true, blk := 2 })).map
      (fun t => (t.acc, t.cy, t.blk, t.len, statusWord t)) = some (0, false, 0, 2, 0x00001000) := by decide

/-- P3: PUSH 0x00 after the last block; STATUS 0x00000808, DONE = 0. -/
theorem test_push_reopens :
    (after (exec (.push 0) sampleDone)).map (fun t => (t.len, t.blk, t.cy, statusWord t)) =
      some (3, 2, true, 0x00000808) := by decide

/-- E14: the PUSH that does not fit, MAXBYTES = 2; STATUS 0x00000804. -/
theorem test_push_overflow :
    (after (exec (.push 3) sampleFull)).map (fun t => (t.resp, t.len, t.buf.length, statusWord t)) =
      some (some 4, 2, 2, 0x00000804) := by decide

/-- P7: the third STEP, the latched carry entering the next block at width 16. -/
theorem test_step_carry_in :
    (after (exec .step
      { loaded (some .w16) [0xFF, 0xFF, 0x00, 0x01, 0x00, 0x00] with cy := true, blk := 2 })).map
      (fun t => (t.acc, t.cy, t.blk, t.resp)) = some (0x00000001, false, 3, some 0) := by decide

/-- P2: the second STEP gives 0x4B9A. -/
theorem test_step_w16 :
    (after (exec .step sampleMid)).map (fun t => (t.acc, t.cy, t.blk, statusWord t)) =
      some (0x00004B9A, false, 2, 0x00001010) := by decide

/-- S1: "AB\n" at width 8 gives 0x8D. -/
theorem test_run_source_example :
    (after (exec .run (loaded (some .w8) [0x41, 0x42, 0x0A]))).map (fun t => (t.acc, t.cy, t.blk, statusWord t)) =
      some (0x0000008D, false, 3, 0x00000810) := by decide

/-- A26: three blocks of 32 bits, the carry of the second entering the third. -/
theorem test_run_w32 :
    (after (exec .run (loaded (some .w32)
      [0x80, 0, 0, 0, 0x80, 0, 0, 0, 0x80, 0, 0, 0]))).map (fun t => (t.acc, t.cy, statusWord t)) =
      some (0x80000001, false, 0x00002010) := by decide

/-- Section 2.7, the row `8 0x01 1 2 2 0`. -/
theorem test_get_done : ([0, 1, 2, 3].map fun q => (after (exec (.get q) sampleDone)).bind State.resp) =
    [some 0x00000001, some 0x00000818, some 0x00000002, some 0x00000002] := by decide

/-- Section 2.7, the row `32 0 0 0 3 3`: GET in the error state. -/
theorem test_get_error : ([0, 1, 2, 3].map fun q => (after (exec (.get q) sampleErr)).bind State.resp) =
    [some 0x00000000, some 0x00002003, some 0x00000003, some 0x00000000] := by decide

/-- E9 and E13: an illegal word from reset, and one after another error. -/
theorem test_illegal_word :
    (after (step { State.reset with port := [0x0000] })).map (fun t => (t.err, t.resp)) =
      some (some .illegalCommand, some 5) ∧
    (after (step { State.reset with port := [0x0604], err := some .configurationError })).map
      (fun t => (t.err, t.resp)) = some (some .configurationError, some 1) := by decide

/-- The source's algorithm on A11, 80 80 80 80 at width 8: 0x01 with a carry out. -/
theorem test_source_sum : sourceSum 8 [0x80, 0x80, 0x80, 0x80] = (0x01, true) := by decide

/-! ### The assembler's lines (R47, R48) -/

/-- The table of R47: a decimal, a hexadecimal and a character operand, and a selector's name. -/
theorem test_assemble_table :
    assembleLine ['C', 'F', 'G', ' ', '3', '2'] = some [0x0220] ∧
    assembleLine ['P', 'U', 'S', 'H', ' ', '0', 'x', '4', '1'] = some [0x0341] ∧
    assembleLine ['P', 'U', 'S', 'H', ' ', '\'', 'A', '\''] = some [0x0341] ∧
    assembleLine ['G', 'E', 'T', ' ', 'L', 'E', 'N'] = some [0x0602] ∧
    assembleLine ['R', 'U', 'N', ' ', ';', ' ', 'x'] = some [0x0500] := by decide

/-- P5 and P1: PADX 1 is PUSH 0x58, and PADX 0 is nothing. -/
theorem test_assemble_padx : assembleLine ['P', 'A', 'D', 'X', ' ', '1'] = some [0x0358] ∧
    assembleLine ['P', 'A', 'D', 'X', ' ', '0'] = some [] := by decide

/-- The boundaries of the digits, by hand from the values of the ASCII table's rows 0x30, 0x41 and 0x61 (entry 13):
0 and 9, A and F, a and f are digits, and their neighbours are none. -/
theorem test_hex_digits :
    (['0', '9', 'A', 'F', 'a', 'f'].map hexDigit) = [some 0, some 9, some 10, some 15, some 10, some 15] ∧
    (['/', ':', '@', 'G', '`', 'g'].map hexDigit) = [none, none, none, none, none, none] := by decide

/-- A line that is none: a mnemonic the unit does not have, an operand where there is none, one too large. -/
theorem test_assemble_refuses : assembleLine ['N', 'O', 'P'] = none ∧
    assembleLine ['R', 'U', 'N', ' ', '1'] = none ∧
    assembleLine ['P', 'U', 'S', 'H', ' ', '2', '5', '6'] = none := by decide

/-! ### Witnesses: for every statement with hypotheses, a state and operands that meet them

Each theorem is named after its obligation and gives, clause by clause, values that meet the clause's
hypotheses, at a boundary of their range where there is one. -/

/-- A sample with one command word at its port. -/
def fed (s : State) (cw : CmdWord) : State := { s with port := [cw] }

theorem fedMid_inv (cw : CmdWord) : StateInv (fed sampleMid cw) := by
  obtain ⟨h1, h2, h3, h4, h5, h6, h7, h8⟩ := sampleMid_inv
  exact ⟨h1, h2, h3, h4, h5, h6, h7, h8⟩

theorem fedMid_partialSum (cw : CmdWord) : PartialSum (fed sampleMid cw) := fun w hw =>
  (sampleMid_partialSum w hw).trans (sumBlocks_of_buf (s := sampleMid) (t := fed sampleMid cw) rfl w 1).symm

/-- The least and the greatest legal MAXBYTES. -/
theorem witness_ResetMeetsInvariants :
    (∃ s : State, Config.legalMaxBytes s.maxBytes ∧ s.maxBytes = 1) ∧
    (∃ s : State, Config.legalMaxBytes s.maxBytes ∧ s.maxBytes = 2 ^ 28 - 1) :=
  ⟨⟨{ State.reset with maxBytes := 1 }, by decide⟩, ⟨{ State.reset with maxBytes := 2 ^ 28 - 1 }, by decide⟩⟩

theorem witness_StepKeepsInvariants : ∃ s t, InvariantTable s ∧ step s = .next t ∧ t.blk ≠ s.blk :=
  ⟨fed sampleMid 0x0400, _, ⟨fedMid_inv _, by decide, by decide, by decide, by decide⟩, rfl, by decide⟩

theorem witness_ExecutionNeverStops : ∃ s, StateInv s ∧ s.len = s.maxBytes :=
  ⟨sampleFull, sampleFull_inv, by decide⟩

theorem witness_AccumulatorIsPartialSum :
    ∃ s t, StateInv s ∧ PartialSum s ∧ step s = .next t ∧ t.acc ≠ s.acc :=
  ⟨fed sampleMid 0x0400, _, fedMid_inv _, fedMid_partialSum _, rfl, by decide⟩

theorem witness_DoneAndNumberOfBlocks :
    (8 * sampleMid.len % BlockWidth.w16.bits = 0 ∧ sampleMid.w = some .w16) ∧
    State.reset.w = none ∧
    (sampleBad.w = some .w32 ∧ 8 * sampleBad.len % BlockWidth.w32.bits ≠ 0) ∧
    (∃ s, StateInv s ∧ s.w = some .w8 ∧ s.len = 0) :=
  ⟨by decide, by decide, by decide, loaded (some .w8) [],
    ⟨by decide, by rintro w ⟨⟩; decide, by decide, by rintro w ⟨⟩; decide, by decide, by decide, by decide,
      by decide⟩, by decide⟩

/-- The second unit holds one byte more, at index LEN. -/
theorem witness_UnusedBufUnobservable :
    ∃ s t s', StateInv s ∧ StateInv t ∧ SameButUnusedBuf s t ∧ s.buf ≠ t.buf ∧ step s = .next s' :=
  ⟨fed sampleMid 0x0500, { fed sampleMid 0x0500 with buf := (fed sampleMid 0x0500).buf.write 4 0xFF }, _,
    fedMid_inv _,
    ⟨by decide, by rintro w ⟨⟩; decide, by decide, by rintro w ⟨⟩; decide, by decide, by decide, by decide,
      by decide⟩,
    by unfold SameButUnusedBuf; decide, by decide, rfl⟩

theorem witness_CountsNeverWrap : ∃ s, StateInv s ∧ s.w = some .w8 ∧ s.blk = numBlocks s .w8 :=
  ⟨sampleDone, sampleDone_inv, by decide⟩

theorem witness_OnlyPushStores :
    ([.rst, .cfg 8, .step, .run, .get 0].all fun i => (after (exec i sampleMid)).isSome) = true ∧
    ∀ b, Instr.run ≠ .push b := ⟨by decide, by rintro b ⟨⟩⟩

/-- A PUSH that is carried out, and one that is refused. -/
theorem witness_PushStoresOneByte :
    (∃ t, exec (.push 0xFF) sampleMid = .next t ∧ t.len = sampleMid.len + 1) ∧
    (∃ t, exec (.push 0xFF) sampleFull = .next t ∧ t.len ≠ sampleFull.len + 1) :=
  ⟨⟨_, rfl, by decide⟩, ⟨_, rfl, by decide⟩⟩

theorem witness_RegisterFrames :
    ([.rst, .cfg 8, .push 0, .step, .run, .get 3].all fun i => (after (exec i sampleMid)).isSome) = true := by
  decide

/-- A command that raises an error, and one that raises none. -/
theorem witness_ErrWrittenAlone :
    (∃ t, exec .run sampleBad = .next t ∧ t.err ≠ sampleBad.err) ∧
    (∃ t, exec .run sampleMid = .next t ∧ t.err = sampleMid.err) :=
  ⟨⟨_, rfl, by decide⟩, ⟨_, rfl, by decide⟩⟩

/-- CFG to another width, and RST. -/
theorem witness_WidthFixedPerComputation :
    (∃ t, exec (.cfg 32) sampleMid = .next t ∧ t.w ≠ sampleMid.w) ∧
    (∃ t, exec .rst sampleMid = .next t ∧ t.w ≠ sampleMid.w) :=
  ⟨⟨_, rfl, by decide⟩, ⟨_, rfl, by decide⟩⟩

theorem witness_RecordOnlyGrows : ∃ t, exec (.push 0xFF) sampleMid = .next t ∧ 3 < sampleMid.len :=
  ⟨_, rfl, by decide⟩

/-- The last two bytes that fit. -/
theorem witness_PushesAppendInOrder :
    ∃ (s : State) (bytes : List Byte), s.err = none ∧ s.len + bytes.length = s.maxBytes ∧ bytes.length = 2 :=
  ⟨{ sampleMid with maxBytes := 6 }, [1, 2], by decide⟩

/-- One byte too many, from a full and from an almost full buffer. -/
theorem witness_TooLongLineOverflows :
    (∃ (s : State) (bytes : List Byte), s.err = none ∧ s.len ≤ s.maxBytes ∧
      s.maxBytes + 1 = s.len + bytes.length ∧ bytes.length = 2) ∧
    (sampleFull.err = none ∧ sampleFull.len ≤ sampleFull.maxBytes ∧ sampleFull.maxBytes < sampleFull.len + 1) :=
  ⟨⟨{ sampleMid with maxBytes := 5 }, [1, 2], by decide⟩, by decide⟩

/-- The first and the last position. -/
theorem witness_BitPickerIsBitExpander : 0 < 8 * sampleMid.len ∧ 31 < 8 * sampleMid.len ∧
    bitAt sampleMid 31 = false ∧ (expandBits (inputRecord sampleMid))[31]? = some false := by decide

theorem witness_BitsRegroupToBytes : 3 < sampleMid.len ∧ byteAt sampleMid 3 = 0x58 := by decide

/-- The last position of the first block, and the first of the second. -/
theorem witness_BlocksPartitionTheBits : 15 < BlockWidth.w16.bits ∧ 8 * sampleMid.len % BlockWidth.w16.bits = 0 ∧
    (15 < 8 * sampleMid.len ∧ 0 * BlockWidth.w16.bits ≤ 15 ∧ 15 < 0 * BlockWidth.w16.bits + BlockWidth.w16.bits) ∧
    (16 < 8 * sampleMid.len ∧ 1 * BlockWidth.w16.bits ≤ 16 ∧ 16 < 1 * BlockWidth.w16.bits + BlockWidth.w16.bits) := by
  decide

theorem witness_BlockIsBigEndianRead :
    sampleMid.buf = [(0, 0x41), (1, 0x42), (2, 0x0A), (3, 0x58)] := by decide

/-- The last block of the record. -/
theorem witness_BlockReadsStayInRecord : StateInv sampleMid ∧ sampleMid.w = some .w16 ∧
    8 * sampleMid.len % BlockWidth.w16.bits = 0 ∧ sampleMid.blk * BlockWidth.w16.bits ≠ 8 * sampleMid.len ∧
    (sampleMid.blk + 1) * BlockWidth.w16.bits = 8 * sampleMid.len :=
  ⟨sampleMid_inv, by decide⟩

theorem witness_IllegalWordsExactly : (fed sampleMid 0x0604).port = 0x0604 :: [] ∧
    decode 0x0604 = .error (.selectorOutOfRange 4) ∧ (fed sampleMid 0x0604).err = none :=
  ⟨rfl, rfl, by decide⟩

/-- A word of a row that is a command, and one of GET's row that is none. -/
theorem witness_OpcodeRowsAgreeWithDecoder :
    (rowOf (.cfg 0) ∈ opRows ∧ (rowOf (.cfg 0)).matches 0x02FF = true) ∧
    (rowOf (.get 0) ∈ opRows ∧ (rowOf (.get 0)).matches 0x0604 = true ∧ 4 ≤ (immField 0x0604).toNat) ∧
    decode 0x02FF = .ok (.cfg 0xFF) := ⟨by decide, by decide, rfl⟩

/-- A command, an illegal word with the gate open and shut, and an empty port. -/
theorem witness_StepRunsDecodedCommand :
    ((fed sampleMid 0x0500).port = 0x0500 :: [] ∧ decode 0x0500 = .ok .run) ∧
    ((fed sampleMid 0xFFFF).port = 0xFFFF :: [] ∧ decode 0xFFFF = .error (.unassignedOpcode 0xFF)) ∧
    (sampleMid.err = none ∧ sampleErr.err = some .invalidInputLength ∧ sampleMid.port = []) :=
  ⟨⟨rfl, rfl⟩, ⟨rfl, rfl⟩, by decide⟩

theorem witness_EveryCommandResponds :
    (∃ t, step (fed sampleMid 0x0603) = .next t ∧ decode 0x0603 = .ok (.get 3) ∧
      selectorOperand 3 = some .blk) ∧
    (∃ t, step (fed sampleMid 0x0500) = .next t ∧ ∀ q, decode 0x0500 ≠ .ok (.get q)) :=
  ⟨⟨_, rfl, rfl, by decide⟩, ⟨_, rfl, by rintro q ⟨⟩⟩⟩

theorem witness_RstResult : (0x01 : Byte) ≠ 0 ∧ (0xFF : Byte) ≠ 0 ∧ sampleErr.err = some .invalidInputLength ∧
    ∃ t, exec .rst sampleErr = .next t ∧ t.err = none :=
  ⟨by decide, by decide, by decide, _, rfl, rfl⟩

/-- Each legal width, the operands next to one, and a latched error. -/
theorem witness_CfgResult : sampleMid.err = none ∧
    ((8 : Byte).toNat = BlockWidth.w8.bits ∧ (16 : Byte).toNat = BlockWidth.w16.bits ∧
      (32 : Byte).toNat = BlockWidth.w32.bits) ∧
    ((33 : Byte) ≠ 8 ∧ (33 : Byte) ≠ 16 ∧ (33 : Byte) ≠ 32) ∧ sampleErr.err = some .invalidInputLength := by
  decide

/-- The last byte that fits, none that fits, a PUSH after the last block, and a latched error. -/
theorem witness_PushResult :
    (sampleFull.err = none ∧ sampleFull.len = sampleFull.maxBytes) ∧
    (∃ s : State, s.err = none ∧ s.len < s.maxBytes ∧ s.len + 1 = s.maxBytes) ∧
    (sampleDone.err = none ∧ sampleDone.len < sampleDone.maxBytes ∧ done sampleDone = true ∧
      ∃ t, exec (.push 0) sampleDone = .next t) ∧ sampleErr.err = some .invalidInputLength :=
  ⟨by decide, ⟨{ sampleMid with maxBytes := 5 }, by decide⟩, ⟨by decide, by decide, by decide, _, rfl⟩, by decide⟩

/-- No width, no whole block, no block left, the last block, a zero block, a latched error. -/
theorem witness_StepResult :
    (State.reset.err = none ∧ State.reset.w = none) ∧
    (sampleBad.err = none ∧ sampleBad.w = some .w32 ∧ 8 * sampleBad.len % BlockWidth.w32.bits ≠ 0) ∧
    (sampleDone.err = none ∧ sampleDone.w = some .w8 ∧ 8 * sampleDone.len % BlockWidth.w8.bits = 0 ∧
      sampleDone.blk * BlockWidth.w8.bits = 8 * sampleDone.len) ∧
    (StateInv sampleMid ∧ sampleMid.err = none ∧ sampleMid.w = some .w16 ∧
      8 * sampleMid.len % BlockWidth.w16.bits = 0 ∧ sampleMid.blk * BlockWidth.w16.bits ≠ 8 * sampleMid.len) ∧
    (StateInv sampleZero ∧ sampleZero.err = none ∧ sampleZero.w = some .w32 ∧
      8 * sampleZero.len % BlockWidth.w32.bits = 0 ∧ sampleZero.blk * BlockWidth.w32.bits ≠ 8 * sampleZero.len ∧
      blockAt sampleZero .w32 sampleZero.blk = 0 ∧ sampleZero.cy = false) ∧
    sampleErr.err = some .invalidInputLength :=
  ⟨by decide, by decide, by decide, ⟨sampleMid_inv, by decide⟩, ⟨sampleZero_inv, by decide⟩, by decide⟩

/-- No width, no whole block, a record of two blocks, an empty record, a RUN after a RUN, a latched error. -/
theorem witness_RunResult :
    (State.reset.err = none ∧ State.reset.w = none) ∧
    (sampleBad.err = none ∧ sampleBad.w = some .w32 ∧ 8 * sampleBad.len % BlockWidth.w32.bits ≠ 0) ∧
    (StateInv sampleMid ∧ sampleMid.err = none ∧ sampleMid.w = some .w16 ∧
      8 * sampleMid.len % BlockWidth.w16.bits = 0 ∧ ∃ t, exec .run sampleMid = .next t) ∧
    ((loaded (some .w32) []).err = none ∧ (loaded (some .w32) []).w = some .w32 ∧
      (loaded (some .w32) []).len = 0) ∧
    (loaded (some .w8) [0x41, 0x42, 0x0A]).buf = [(0, 0x41), (1, 0x42), (2, 0x0A)] ∧
    sampleErr.err = some .invalidInputLength :=
  ⟨by decide, by decide, ⟨sampleMid_inv, by decide, by decide, by decide, _, rfl⟩, by decide, by decide,
    by decide⟩

/-- The least selector that is none, with the gate open and shut, the greatest that is one, and the state of the
rule's example. -/
theorem witness_GetResult : 4 ≤ (4 : Byte).toNat ∧ (3 : Byte).toNat ≤ 3 ∧
    ((fed sampleMid 0x0604).port = (0x0600#16 + (4 : Byte).setWidth 16) :: [] ∧ sampleMid.err = none) ∧
    ((fed sampleErr 0x0604).port = (0x0600#16 + (4 : Byte).setWidth 16) :: [] ∧
      sampleErr.err = some .invalidInputLength) ∧
    ∃ s : State, s.w = some .w8 ∧ s.len = 3 ∧ s.blk = 3 ∧ s.acc = 0x8D ∧ s.cy = false ∧ s.err = none :=
  ⟨by decide, by decide, by decide, by decide,
    { loaded (some .w8) [0x41, 0x42, 0x0A] with acc := 0x8D, blk := 3 }, by decide⟩

/-- The greatest operands at width 8. -/
theorem witness_AdderIsExact : 0xFF < 2 ^ 8 ∧ 0xFF < 2 ^ 8 := by decide

/-- The carries of the bit-serial adder meet the rule's two equations. -/
theorem witness_BitSerialAdderAgrees : 0xFF < 2 ^ 8 ∧ 0x01 < 2 ^ 8 ∧
    ∃ c : Nat → Bool, c 0 = true ∧ ∀ i, c (i + 1) =
      ((Nat.testBit 0xFF i && Nat.testBit 0x01 i) || (Nat.testBit 0xFF i && c i) || (Nat.testBit 0x01 i && c i)) :=
  ⟨by decide, by decide, rippleCarry 0xFF 0x01 true, rfl, fun _ => rfl⟩

theorem witness_AdderBounds : 0xFFFFFFFF < 2 ^ 32 := by decide

theorem witness_RunIsCfgThenSteps : StateInv sampleMid ∧ sampleMid.err = none ∧ sampleMid.w = some .w16 ∧
    8 * sampleMid.len % BlockWidth.w16.bits = 0 := ⟨sampleMid_inv, by decide⟩

/-- With a block added and one left. -/
theorem witness_StepsContinueToRun : StateInv sampleMid ∧ PartialSum sampleMid ∧ sampleMid.err = none ∧
    sampleMid.w = some .w16 ∧ 8 * sampleMid.len % BlockWidth.w16.bits = 0 ∧ sampleMid.blk = 1 ∧
    8 * sampleMid.len / BlockWidth.w16.bits = 2 :=
  ⟨sampleMid_inv, sampleMid_partialSum, by decide⟩

theorem witness_RunIsSourceChecksum : StateInv sampleDone ∧ sampleDone.err = none ∧ sampleDone.w = some .w8 ∧
    8 * sampleDone.len % BlockWidth.w8.bits = 0 := ⟨sampleDone_inv, by decide⟩

theorem witness_LastCarryDropped : StateInv sampleDone ∧ sampleDone.err = none ∧ sampleDone.w = some .w8 ∧
    8 * sampleDone.len = (1 + 1) * BlockWidth.w8.bits ∧ ∃ t, exec .run sampleDone = .next t ∧ t.cy = true :=
  ⟨sampleDone_inv, by decide, by decide, by decide, _, rfl, rfl⟩

/-- With a carry out, and with none. -/
theorem witness_ClosedFormOfTheSum :
    (PartialSum sampleDone ∧ sampleDone.w = some .w8 ∧ carriesOut sampleDone .w8 sampleDone.blk = 1) ∧
    (PartialSum sampleMid ∧ sampleMid.w = some .w16 ∧ carriesOut sampleMid .w16 sampleMid.blk = 0) :=
  ⟨⟨sampleDone_partialSum, by decide⟩, ⟨sampleMid_partialSum, by decide⟩⟩

/-- Two units with the same capacity and nothing else the same. -/
theorem witness_ChecksumDeterministic : sampleMid.maxBytes = sampleErr.maxBytes ∧ sampleMid ≠ sampleErr := by
  decide

theorem witness_ZeroRecordSumsToZero : StateInv sampleZero ∧ sampleZero.err = none ∧ sampleZero.w = some .w32 ∧
    8 * sampleZero.len % BlockWidth.w32.bits = 0 ∧ ∀ a, a < sampleZero.len → sampleZero.buf.read a = some 0 :=
  ⟨sampleZero_inv, by decide⟩

theorem witness_HostTestMeansChecksum :
    (StateInv sampleDone ∧ PartialSum sampleDone ∧ sampleDone.w = some .w8 ∧ hostTest sampleDone = true) ∧
    (PartialSum sampleMid ∧ sampleMid.w = some .w16 ∧ hostTest sampleMid = false) :=
  ⟨⟨sampleDone_inv, sampleDone_partialSum, by decide⟩, ⟨sampleMid_partialSum, by decide⟩⟩

theorem witness_ZeroBlockFoldsCarry : StateInv sampleDone ∧ sampleDone.err = none ∧ sampleDone.w = some .w8 ∧
    done sampleDone = true ∧ sampleDone.len < sampleDone.maxBytes ∧ sampleDone.cy = true :=
  ⟨sampleDone_inv, by decide⟩

/-- Each error is raised somewhere. -/
theorem witness_ErrorCodesAndCauses :
    ((after (exec (.cfg 24) sampleMid)).bind State.err = some .configurationError ∧
      (after (exec .run State.reset)).bind State.err = some .configurationError) ∧
    (after (exec .step sampleBad)).bind State.err = some .invalidInputLength ∧
    (after (exec (.push 0) sampleFull)).bind State.err = some .bufferOverflow ∧
    (after (step (fed sampleMid 0x0604))).bind State.err = some .illegalCommand ∧
    ((fed sampleMid 0x0604).port = 0x0604 :: [] ∧ sampleMid.err = none) := by decide

/-- At width 16 and at width 32, and a run that raises it. -/
theorem witness_LengthErrorExactly :
    (∃ s : State, s.err = none ∧ s.w = some .w16 ∧ 8 * s.len % BlockWidth.w16.bits ≠ 0 ∧ s.len = 1) ∧
    (sampleBad.err = none ∧ sampleBad.w = some .w32 ∧ 8 * sampleBad.len % BlockWidth.w32.bits ≠ 0) ∧
    (∃ t, exec .run sampleBad = .next t ∧ t.err = some .invalidInputLength) :=
  ⟨⟨loaded (some .w16) [0x41], by decide⟩, by decide, _, rfl, rfl⟩

theorem witness_RaiseKeepsFirstError : sampleMid.err = none ∧ sampleErr.err = some .invalidInputLength ∧
    Instr.run ≠ .rst ∧ ∃ t, exec .run sampleBad = .next t ∧ t.err ≠ none :=
  ⟨by decide, by decide, by decide, _, rfl, by decide⟩

/-- A command and an illegal word, in the error state. -/
theorem witness_GateIgnoresCommands :
    ((fed sampleErr 0x0358).port = 0x0358 :: [] ∧ sampleErr.err = some .invalidInputLength ∧
      (0x0358 : CmdWord) ≠ 0x0100 ∧ ∀ q, decode 0x0358 ≠ .ok (.get q)) ∧
    ((fed sampleErr 0x0604).port = 0x0604 :: [] ∧ (0x0604 : CmdWord) ≠ 0x0100 ∧
      ∀ q, decode 0x0604 ≠ .ok (.get q)) :=
  ⟨⟨rfl, rfl, by decide, by rintro q ⟨⟩⟩, ⟨rfl, by decide, by rintro q ⟨⟩⟩⟩

theorem witness_ErrorsArePrecise : sampleBad.err = none ∧
    (∃ t, exec .run sampleBad = .next t ∧ t.err = some .invalidInputLength) ∧ Instr.push 0x58 ≠ .rst :=
  ⟨by decide, ⟨_, rfl, rfl⟩, by decide⟩

/-- A word of every class of R42, over one state. -/
theorem witness_CheckOrder : ∀ cw, StateInv (fed sampleMid cw) ∧ (fed sampleMid cw).port = cw :: [] :=
  fun cw => ⟨fedMid_inv cw, rfl⟩

/-- A step that stays in the error state, and one that leaves it. -/
theorem witness_OnlyResetLeavesErrorState :
    (∃ t, step (fed sampleErr 0x0500) = .next t ∧ t.err = sampleErr.err) ∧
    (∃ t, step (fed sampleErr 0x0100) = .next t ∧ t.err = none) ∧ (fed sampleErr 0x0100).port = 0x0100 :: [] :=
  ⟨⟨_, rfl, rfl⟩, ⟨_, rfl, rfl⟩, rfl⟩

/-- P5's line with its one filler byte, in a buffer that just holds it. -/
theorem witness_HostProtocolGivesChecksum :
    ∃ s : State, (padded [0x41, 0x42, 0x0A] .w32).length ≤ s.maxBytes ∧ s.maxBytes < 2 ^ 28 ∧
      (padded [0x41, 0x42, 0x0A] .w32).length = s.maxBytes :=
  ⟨{ State.reset with maxBytes := 4 }, by decide⟩

/-- The least selector that is none, with the gate open and shut, and a term that raises IllegalCommand. -/
theorem witness_IllFormedTermsActAsIllegalWords : 4 ≤ (4 : Byte).toNat ∧ sampleMid.err = none ∧
    sampleErr.err = some .invalidInputLength ∧
    ∃ t, exec (.get 4) sampleMid = .next t ∧ t.err = some .illegalCommand :=
  ⟨by decide, by decide, by decide, _, rfl, rfl⟩

end Sys2Proof.Tests
end

section
/-! The fields of STATUS, each read back from its place in the word (R17), and the values W and ERR can show. -/

namespace Sys2Proof

open Sys2Proof.Machine BitVec

variable (s : State)

theorem statusWord_bits_2_0 : (statusWord s).extractLsb' 0 3 = errField s.err :=
  extractLsb'_append_eq_right

theorem statusWord_bit_3 : (statusWord s).getLsbD 3 = s.cy := by
  unfold statusWord
  rw [getLsbD_append, getLsbD_append]
  simp

theorem statusWord_bit_4 : (statusWord s).getLsbD 4 = done s := by
  unfold statusWord
  rw [getLsbD_append, getLsbD_append, getLsbD_append]
  simp

theorem statusWord_bits_7_5 : (statusWord s).extractLsb' 5 3 = 0 := by
  unfold statusWord
  rw [extractLsb'_append_eq_of_le, extractLsb'_append_eq_of_le, extractLsb'_append_eq_of_le,
    extractLsb'_append_eq_right] <;> decide

theorem statusWord_bits_13_8 : (statusWord s).extractLsb' 8 6 = widthField s.w := by
  unfold statusWord
  rw [extractLsb'_append_eq_of_le, extractLsb'_append_eq_of_le, extractLsb'_append_eq_of_le,
    extractLsb'_append_eq_of_le, extractLsb'_append_eq_right] <;> decide

theorem statusWord_bits_31_14 : (statusWord s).extractLsb' 14 18 = 0 := by
  unfold statusWord
  rw [extractLsb'_append_eq_of_le, extractLsb'_append_eq_of_le, extractLsb'_append_eq_of_le,
    extractLsb'_append_eq_of_le, extractLsb'_append_eq_left] <;> decide

/-- The 6-bit register W holds the number of bits of every width, so nothing of it is cut off (R12). -/
@[simp] theorem widthField_some_toNat (w : BlockWidth) : (widthField (some w)).toNat = w.bits := by
  cases w <;> rfl

theorem widthField_mem (o : Option BlockWidth) : widthField o ∈ [0, 8, 16, 32] := by
  rcases o with - | (_ | _ | _) <;> decide

theorem errField_mem (o : Option ErrorKind) : errField o ∈ [0, 1, 3, 4, 5] := by
  rcases o with - | (_ | _ | _ | _) <;> decide

/-- Settles O6: each field of R17 by the lemma that reads it back, and GET's selector 1 names STATUS. -/
theorem statusLayout : Obligations.StatusLayout := by
  intro s
  refine ⟨statusWord_bits_2_0 s, statusWord_bit_3 s, statusWord_bit_4 s, statusWord_bits_7_5 s, ?_,
    statusWord_bits_31_14 s, rfl⟩
  rw [statusWord_bits_13_8]
  cases s.w with
  | none => rfl
  | some w => exact widthField_some_toNat w

end Sys2Proof
end

section
/-! When DONE is 1, and how many blocks a whole record has (R18). -/

namespace Sys2Proof

open Sys2Proof.Machine

theorem done_of_unconfigured {s : State} (h : s.w = none) : done s = false := by simp [done, h]

/-- The blocks of a whole record, counted in bytes. -/
theorem numBlocks_eq_div_bytes {s : State} {w : BlockWidth} (h : 8 * s.len % w.bits = 0) :
    numBlocks s w = s.len / w.bytes :=
  (Nat.div_eq_of_eq_mul_left w.bytes_pos (numBlocks_mul_bytes h).symm).symm

/-- Whole blocks cannot add up to a record with a partial trailing block. -/
theorem done_of_partial_block {s : State} {w : BlockWidth} (hw : s.w = some w)
    (h : 8 * s.len % w.bits ≠ 0) : done s = false := by
  rw [Bool.eq_false_iff, Ne, done_iff hw]
  intro hd
  exact h (hd ▸ Nat.mul_mod_left ..)

/-- No block fits an empty record, so none is left to add. -/
theorem StateInv.done_of_empty {s : State} {w : BlockWidth} (h : StateInv s) (hw : s.w = some w)
    (hl : s.len = 0) : done s = true := by
  have hb := h.blkBound w hw
  rw [done_iff hw]
  omega

/-- Settles O7, clause by clause. -/
theorem doneAndNumberOfBlocks : Obligations.DoneAndNumberOfBlocks :=
  ⟨fun _ _ h => ⟨numBlocks_eq_div_bytes h, numBlocks_mul h⟩, fun _ => done_of_unconfigured,
    fun _ _ => done_iff, fun _ _ => done_of_partial_block, fun _ _ => StateInv.done_of_empty⟩

end Sys2Proof
end

section
/-! The state after RST and after hardware reset (R23). -/

namespace Sys2Proof

open Sys2Proof.Machine

/-- With W, CY and ERR zero every field of STATUS is: DONE needs a configured width. -/
theorem statusWord_eq_zero {s : State} (hw : s.w = none) (hc : s.cy = false) (he : s.err = none) :
    statusWord s = 0 := by
  rw [statusWord, done_of_unconfigured hw, hw, hc, he]
  rfl

/-- With LEN = 0 every byte of BUF is unused, so no observer sees which bytes it holds (R10). -/
theorem sameButUnusedBuf_of_empty {s : State} (h : s.len = 0) (m : Memory) :
    SameButUnusedBuf s { s with buf := m } :=
  ⟨rfl, rfl, rfl, rfl, rfl, rfl, rfl, rfl, rfl, fun _ ha => absurd ha (by simp [h])⟩

/-- Settles O5: the registers are zero by definition, STATUS and the unused BUF by the two lemmas above. -/
theorem resetValues : Obligations.ResetValues :=
  ⟨⟨rfl, rfl, rfl, rfl, rfl, rfl, statusWord_eq_zero rfl rfl rfl⟩,
    fun _ => ⟨rfl, rfl, rfl, rfl, rfl, rfl, statusWord_eq_zero rfl rfl rfl⟩,
    fun s => ⟨_, execRst_eq s, rfl, rfl, rfl, rfl, rfl, rfl, statusWord_eq_zero rfl rfl rfl, rfl⟩,
    fun s m => ⟨_, _, execRst_eq s, execRst_eq _, sameButUnusedBuf_of_empty rfl m⟩,
    fun _ m => sameButUnusedBuf_of_empty rfl m⟩

end Sys2Proof
end

section
/-! Every command keeps the invariants of R22: first what each kind of update needs to keep them, then each
command by everything it can do (`execCfg_cases` and its like). -/

namespace Sys2Proof

open Sys2Proof.Machine

/-! ### The updates of the registers and of BUF -/

theorem StateInv.hardwareReset_of_legal {s : State} (h : Config.legalMaxBytes s.maxBytes) :
    StateInv (hardwareReset s) where
  unconfigured _ := ⟨rfl, rfl, rfl⟩
  accFits _ hw := nomatch hw
  lenBound := Nat.zero_le _
  blkBound _ hw := nomatch hw
  maxLegal := h
  bufSorted := reset_buf_wf
  bufInRange _ hc := nomatch hc
  recordWritten _ ha := nomatch ha

section Updates

variable {s : State} (h : StateInv s)
include h

/-- A refused or ignored command, and the taking of a word: ERR, the port and the response alone change. -/
theorem StateInv.with_err_port_resp (e : Option ErrorKind) (p : List CmdWord) (r : Option RespWord) :
    StateInv { s with err := e, port := p, resp := r } :=
  h.of_eq rfl rfl rfl rfl rfl rfl rfl

theorem StateInv.clearAll_keeps : StateInv (clearAll s) where
  unconfigured _ := ⟨rfl, rfl, rfl⟩
  accFits _ hw := nomatch hw
  lenBound := Nat.zero_le _
  blkBound _ hw := nomatch hw
  maxLegal := h.maxLegal
  bufSorted := h.bufSorted
  bufInRange := h.bufInRange
  recordWritten _ ha := nomatch ha

/-- A computation at a width begins with nothing added. -/
theorem StateInv.with_width (w : BlockWidth) :
    StateInv { s with w := some w, acc := 0, cy := false, blk := 0 } where
  unconfigured hw := nomatch hw
  accFits _ _ := Nat.two_pow_pos _
  lenBound := h.lenBound
  blkBound _ _ := by simp
  maxLegal := h.maxLegal
  bufSorted := h.bufSorted
  bufInRange := h.bufInRange
  recordWritten := h.recordWritten

/-- Where there is room the record grows by the byte at its end. -/
theorem StateInv.with_pushed (b : Byte) (hlt : s.len < s.maxBytes) :
    StateInv { s with buf := s.buf.write s.len b, len := s.len + 1 } where
  unconfigured := h.unconfigured
  accFits := h.accFits
  lenBound := hlt
  blkBound w hw := Nat.le_trans (h.blkBound w hw) (Nat.mul_le_mul_left 8 (Nat.le_succ _))
  maxLegal := h.maxLegal
  bufSorted := Memory.write_wf _ _ h.bufSorted
  bufInRange c hc := by
    obtain hc | ⟨d, hd, hdc⟩ := Memory.fst_of_mem_write hc
    · exact hc ▸ hlt
    · exact hdc ▸ h.bufInRange d hd
  recordWritten a ha := by
    change ((s.buf.write s.len b).read a).isSome = true
    obtain rfl | hne := eq_or_ne a s.len
    · simp
    · rw [Memory.read_write_other _ b hne]
      exact h.recordWritten a (Nat.lt_of_le_of_ne (Nat.le_of_lt_succ ha) hne)

/-- What STEP and RUN write: a sum of W bits, any carry, and a count of blocks that the record holds. -/
theorem StateInv.with_sum {w : BlockWidth} (hw : s.w = some w) {a k : Nat} (c : Bool)
    (ha : a < 2 ^ w.bits) (hk : k * w.bits ≤ 8 * s.len) :
    StateInv { s with acc := BitVec.ofNat 32 a, cy := c, blk := k } where
  unconfigured hn := nomatch hw.symm.trans hn
  accFits w' hw' := by
    obtain rfl : w = w' := Option.some.inj (hw.symm.trans hw')
    rw [BitVec.toNat_ofNat]
    exact Nat.lt_of_le_of_lt (Nat.mod_le ..) ha
  lenBound := h.lenBound
  blkBound w' hw' := by
    obtain rfl : w = w' := Option.some.inj (hw.symm.trans hw')
    exact hk
  maxLegal := h.maxLegal
  bufSorted := h.bufSorted
  bufInRange := h.bufInRange
  recordWritten := h.recordWritten

/-! ### The commands -/

variable {t : State}

theorem StateInv.execRst_next (ht : execRst s = .next t) : StateInv t := by
  cases ht
  exact h.clearAll_keeps.with_err_port_resp _ _ _

theorem StateInv.execCfg_next {w : Byte} (ht : execCfg w s = .next t) : StateInv t := by
  obtain ⟨e, -, hx⟩ | ⟨-, -, hx⟩ | ⟨bw, -, -, hx⟩ := execCfg_cases w s <;> cases hx.symm.trans ht
  · exact h.with_err_port_resp _ _ _
  · exact h.with_err_port_resp _ _ _
  · exact (h.with_width bw).with_err_port_resp _ _ _

theorem StateInv.execPush_next {b : Byte} (ht : execPush b s = .next t) : StateInv t := by
  obtain ⟨e, -, hx⟩ | ⟨-, -, hx⟩ | ⟨-, -, hx⟩ | ⟨-, hlt, hx⟩ := execPush_cases b s <;>
    cases hx.symm.trans ht
  · exact h.with_err_port_resp _ _ _
  · exact h.with_err_port_resp _ _ _
  · exact (h.with_pushed b hlt).with_err_port_resp _ _ _

theorem StateInv.execStep_next (ht : execStep s = .next t) : StateInv t := by
  obtain ⟨e, -, hx⟩ | ⟨-, -, hx⟩ | ⟨w, -, -, -, hx⟩ | ⟨w, -, -, -, -, hx⟩ | ⟨w, f, -, -, -, -, -, hx⟩ |
    ⟨w, -, hw, hl, hb, -, hx⟩ := execStep_cases s <;> cases hx.symm.trans ht
  · exact h.with_err_port_resp _ _ _
  · exact h.with_err_port_resp _ _ _
  · exact h.with_err_port_resp _ _ _
  · exact h.with_err_port_resp _ _ _
  · obtain ⟨-, hk⟩ := h.room hw hl hb
    exact (h.with_sum hw _ (addEAC_fst_lt ..) hk).with_err_port_resp _ _ _

theorem StateInv.execRun_next (ht : execRun s = .next t) : StateInv t := by
  obtain ⟨e, -, hx⟩ | ⟨-, -, hx⟩ | ⟨w, -, -, -, hx⟩ | ⟨w, f, -, -, -, -, hx⟩ | ⟨w, -, hw, hl, -, hx⟩ :=
    execRun_cases s <;> cases hx.symm.trans ht
  · exact h.with_err_port_resp _ _ _
  · exact h.with_err_port_resp _ _ _
  · exact h.with_err_port_resp _ _ _
  · exact (h.with_sum hw _ (sumBlocks_fst_lt ..) (numBlocks_mul hl).le).with_err_port_resp _ _ _

theorem StateInv.execGet_next {q : Byte} (ht : execGet q s = .next t) : StateInv t := by
  obtain ⟨sel, -, hx⟩ | ⟨e, -, -, hx⟩ | ⟨-, -, hx⟩ := execGet_cases q s <;> cases hx.symm.trans ht <;>
    exact h.with_err_port_resp _ _ _

theorem StateInv.execIllegal_next (ht : execIllegal s = .next t) : StateInv t := by
  obtain he | ⟨e, he⟩ := s.err.eq_none_or_eq_some
  · cases (execIllegal_of_none he).symm.trans ht
    exact h.with_err_port_resp _ _ _
  · cases (execIllegal_of_some he).symm.trans ht
    exact h.with_err_port_resp _ _ _

theorem StateInv.exec_next {i : Instr} (ht : exec i s = .next t) : StateInv t := by
  cases i with
  | rst => exact h.execRst_next ht
  | cfg w => exact h.execCfg_next ht
  | push b => exact h.execPush_next ht
  | step => exact h.execStep_next ht
  | run => exact h.execRun_next ht
  | get q => exact h.execGet_next ht

theorem StateInv.step_next (ht : step s = .next t) : StateInv t := by
  obtain ⟨-, hx⟩ | ⟨cw, rest, i, -, -, hx⟩ | ⟨cw, rest, x, -, -, hx⟩ := step_cases s
  · cases hx.symm.trans ht
    exact h
  · exact (h.with_err_port_resp _ rest _).exec_next (hx.symm.trans ht)
  · exact (h.with_err_port_resp _ rest _).execIllegal_next (hx.symm.trans ht)

end Updates

/-! ### The table of R22 -/

/-- The rows of R22 beside `StateInv` hold of every state, by the types of W and ERR and the layout of STATUS. -/
theorem invariantTable_iff {s : State} : InvariantTable s ↔ StateInv s :=
  and_iff_left ⟨widthField_mem _, errField_mem _, statusWord_bits_7_5 s, statusWord_bits_31_14 s⟩

/-- Settles O2: `StateInv` is the part of the table a step could break, and `StateInv.step_next` keeps it. -/
theorem stepKeepsInvariants : Obligations.StepKeepsInvariants :=
  ⟨invariantTable_iff.2 (StateInv.hardwareReset_of_legal (s := State.reset) (by decide)),
    fun _ _ hs ht => invariantTable_iff.2 ((invariantTable_iff.1 hs).step_next ht)⟩

end Sys2Proof
end

section
/-! The decoder by the opcode: one equation per row of R41, the ILLEGAL class of R43, and what a step does
with a word of either class (R49). -/

namespace Sys2Proof

open Sys2Proof.Machine

/-! ### One equation per opcode -/

section DecodeOfOp

variable {cw : CmdWord}

theorem decode_of_op_rst (h : opField cw = 1) :
    decode cw = if immField cw = 0 then .ok .rst else .error (.operandNotZero 1 (immField cw)) := by
  simp [decode, h]

theorem decode_of_op_cfg (h : opField cw = 2) : decode cw = .ok (.cfg (immField cw)) := by
  simp [decode, h]

theorem decode_of_op_push (h : opField cw = 3) : decode cw = .ok (.push (immField cw)) := by
  simp [decode, h]

theorem decode_of_op_step (h : opField cw = 4) :
    decode cw = if immField cw = 0 then .ok .step else .error (.operandNotZero 4 (immField cw)) := by
  simp [decode, h]

theorem decode_of_op_run (h : opField cw = 5) :
    decode cw = if immField cw = 0 then .ok .run else .error (.operandNotZero 5 (immField cw)) := by
  simp [decode, h]

theorem decode_of_op_get (h : opField cw = 6) :
    decode cw = if (immField cw).toNat ≤ 3 then .ok (.get (immField cw))
      else .error (.selectorOutOfRange (immField cw)) := by
  simp [decode, h]

theorem decode_of_op_unassigned (h : opField cw = 0 ∨ 7 ≤ (opField cw).toNat) :
    decode cw = .error (.unassignedOpcode (opField cw)) := by
  unfold decode
  iterate 6 rw [if_neg (by bv_omega)]

end DecodeOfOp

/-- The opcodes: the six of R41, and the unassigned ones of R43. -/
theorem opcode_cases (op : Byte) :
    op = 1 ∨ op = 2 ∨ op = 3 ∨ op = 4 ∨ op = 5 ∨ op = 6 ∨ (op = 0 ∨ 7 ≤ op.toNat) := by
  bv_omega

/-- A check of the operand refuses exactly the words that fail it. -/
theorem ite_ok_eq_error_iff {p : Prop} [Decidable p] {i : Instr} {x : Illegal} :
    (∃ e, (if p then Except.ok i else .error x) = Except.error e) ↔ ¬p := by
  split <;> simp [*]

/-- The ILLEGAL class as R43 lists it. -/
theorem decode_eq_error_iff (cw : CmdWord) : (∃ e, decode cw = .error e) ↔
    (opField cw = 0 ∨ 7 ≤ (opField cw).toNat ∨
      ((opField cw = 1 ∨ opField cw = 4 ∨ opField cw = 5) ∧ immField cw ≠ 0) ∨
      (opField cw = 6 ∧ 4 ≤ (immField cw).toNat)) := by
  obtain h | h | h | h | h | h | h := opcode_cases (opField cw)
  · rw [decode_of_op_rst h, ite_ok_eq_error_iff]; simp [h]
  · simp [decode_of_op_cfg h, h]
  · simp [decode_of_op_push h, h]
  · rw [decode_of_op_step h, ite_ok_eq_error_iff]; simp [h]
  · rw [decode_of_op_run h, ite_ok_eq_error_iff]; simp [h]
  · rw [decode_of_op_get h, ite_ok_eq_error_iff, Nat.not_le]; simp [h, Nat.succ_le_iff]
  · exact iff_of_true ⟨_, decode_of_op_unassigned h⟩ (or_assoc.1 (.inl h))

/-! ### The decoder against the encoder -/

/-- A well-formed command is what its word decodes to. -/
theorem decode_encode {i : Instr} (h : i.wf = true) : decode (encode i) = .ok i := by
  cases i with
  | rst | step | run => rfl
  | cfg w => rw [decode_of_op_cfg (opField_encode _), immField_encode]; rfl
  | push b => rw [decode_of_op_push (opField_encode _), immField_encode]; rfl
  | get q =>
    rw [decode_of_op_get (opField_encode _), immField_encode]
    exact if_pos (of_decide_eq_true h)

/-- A check of the operand lets exactly the words through that meet it. -/
theorem ite_ok_eq_ok_iff {p : Prop} [Decidable p] {i j : Instr} {x : Illegal} :
    (if p then Except.ok i else .error x) = Except.ok j ↔ p ∧ i = j := by
  split <;> simp [*]

/-- The fields of a word that decodes are those of a well-formed command. -/
theorem fields_of_decode {cw : CmdWord} {i : Instr} (h : decode cw = .ok i) :
    opField cw = opcodeOf i ∧ immField cw = operandOf i ∧ i.wf = true := by
  obtain ho | ho | ho | ho | ho | ho | ho := opcode_cases (opField cw)
  · obtain ⟨hi, rfl⟩ := ite_ok_eq_ok_iff.1 ((decode_of_op_rst ho).symm.trans h)
    exact ⟨ho, hi, rfl⟩
  · cases (decode_of_op_cfg ho).symm.trans h
    exact ⟨ho, rfl, rfl⟩
  · cases (decode_of_op_push ho).symm.trans h
    exact ⟨ho, rfl, rfl⟩
  · obtain ⟨hi, rfl⟩ := ite_ok_eq_ok_iff.1 ((decode_of_op_step ho).symm.trans h)
    exact ⟨ho, hi, rfl⟩
  · obtain ⟨hi, rfl⟩ := ite_ok_eq_ok_iff.1 ((decode_of_op_run ho).symm.trans h)
    exact ⟨ho, hi, rfl⟩
  · obtain ⟨hi, rfl⟩ := ite_ok_eq_ok_iff.1 ((decode_of_op_get ho).symm.trans h)
    exact ⟨ho, rfl, decide_eq_true hi⟩
  · cases (decode_of_op_unassigned ho).symm.trans h

/-- What a word decodes to is well-formed and has that word. -/
theorem encode_of_decode {cw : CmdWord} {i : Instr} (h : decode cw = .ok i) :
    cw = encode i ∧ i.wf = true := by
  obtain ⟨ho, hi, hwf⟩ := fields_of_decode h
  exact ⟨by rw [word_split cw, ho, hi, encode], hwf⟩

/-- No word stands for two commands. -/
theorem encode_inj_of_wf {i j : Instr} (hi : i.wf = true) (hj : j.wf = true)
    (h : encode i = encode j) : i = j :=
  Except.ok.inj ((decode_encode hi).symm.trans (h ▸ decode_encode hj))

/-! ### The legal words, listed -/

/-- All 256 bytes. -/
def allBytes : List Byte := (List.finRange 256).map BitVec.ofFin

theorem allBytes_nodup : allBytes.Nodup :=
  (List.nodup_finRange 256).map fun _ _ h => congrArg BitVec.toFin h

@[simp] theorem allBytes_length : allBytes.length = 256 := by simp [allBytes]

@[simp] theorem mem_allBytes (b : Byte) : b ∈ allBytes :=
  List.mem_map.2 ⟨b.toFin, List.mem_finRange _, rfl⟩

/-- The commands of the unit: three without an operand, CFG and PUSH at every byte, GET at four selectors. -/
def legalCommands : List Instr :=
  [Instr.rst, .step, .run] ++ [0, 1, 2, 3].map .get ++ allBytes.map .cfg ++ allBytes.map .push

theorem legalCommands_length : legalCommands.length = 519 := by simp [legalCommands]

theorem legalCommands_nodup : legalCommands.Nodup := by
  have hcfg : (allBytes.map Instr.cfg).Nodup := allBytes_nodup.map fun _ _ h => Instr.cfg.inj h
  have hpush : (allBytes.map Instr.push).Nodup := allBytes_nodup.map fun _ _ h => Instr.push.inj h
  have hrest : ([Instr.rst, .step, .run] ++ [0, 1, 2, 3].map Instr.get).Nodup := by decide
  refine (hrest.append hcfg ?_).append hpush ?_ <;> simp [List.Disjoint]

theorem mem_legalCommands (i : Instr) : i ∈ legalCommands ↔ i.wf = true := by
  cases i with
  | get q =>
    have hq : q.toNat ≤ 3 ↔ q = 0 ∨ q = 1 ∨ q = 2 ∨ q = 3 := by bv_omega
    simp [legalCommands, Instr.wf, hq]
  | _ => simp [legalCommands, Instr.wf]

/-- The words of those commands. -/
def legalWords : List CmdWord := legalCommands.map encode

theorem legalWords_length : legalWords.length = 519 :=
  (List.length_map _).trans legalCommands_length

theorem legalWords_nodup : legalWords.Nodup :=
  legalCommands_nodup.map_on fun i hi j hj =>
    encode_inj_of_wf ((mem_legalCommands i).1 hi) ((mem_legalCommands j).1 hj)

/-- The listed words are the words that decode. -/
theorem mem_legalWords (cw : CmdWord) : cw ∈ legalWords ↔ ∃ i, decode cw = .ok i := by
  rw [legalWords, List.mem_map]
  constructor
  · rintro ⟨i, hi, rfl⟩
    exact ⟨i, decode_encode ((mem_legalCommands i).1 hi)⟩
  · rintro ⟨i, hi⟩
    obtain ⟨hcw, hwf⟩ := encode_of_decode hi
    exact ⟨i, (mem_legalCommands i).2 hwf, hcw.symm⟩

/-! ### A step on a word of either class -/

section StepOnWord

variable {s : State} {cw : CmdWord} {rest : List CmdWord} (hp : s.port = cw :: rest)
include hp

theorem step_of_decode_ok {i : Instr} (h : decode cw = .ok i) :
    step s = exec i { s with port := rest } := by
  simp [step, takeCommand_cons hp, h]

theorem step_of_decode_error {e : Illegal} (h : decode cw = .error e) :
    step s = execIllegal { s with port := rest } := by
  simp [step, takeCommand_cons hp, h]

end StepOnWord

/-- Settles O24: the class by the opcode, the legal words as those of the 519 commands, and the error entry. -/
theorem illegalWordsExactly : Obligations.IllegalWordsExactly := by
  refine ⟨decode_eq_error_iff,
    ⟨legalWords, legalWords_nodup, legalWords_length, by have := legalWords_length; omega,
      mem_legalWords⟩,
    ⟨_, decode_of_op_unassigned (.inl rfl)⟩, ⟨_, decode_of_op_unassigned (.inr (by decide))⟩, ?_⟩
  intro s cw rest e hp hd he
  exact (step_of_decode_error hp hd).trans (execIllegal_of_none (s := { s with port := rest }) he)

end Sys2Proof
end

section
/-! The response to a command (R46). -/

namespace Sys2Proof

open Sys2Proof.Machine

/-- From `s` to `t` the command port is left alone and ERR, as it is in `t`, is answered. -/
def AnswersErr (s t : State) : Prop := t.port = s.port ∧ t.resp = some (errWord t.err)

variable {s t : State}

theorem answersErr_of_execRst (ht : execRst s = .next t) : AnswersErr s t := by
  cases ht
  exact ⟨rfl, rfl⟩

theorem answersErr_of_execCfg {w : Byte} (ht : execCfg w s = .next t) : AnswersErr s t := by
  obtain ⟨e, he, hx⟩ | ⟨-, -, hx⟩ | ⟨bw, he, -, hx⟩ := execCfg_cases w s <;> cases hx.symm.trans ht
  · exact ⟨rfl, by rw [he]⟩
  · exact ⟨rfl, rfl⟩
  · exact ⟨rfl, by rw [he, errWord_none]⟩

theorem answersErr_of_execPush {b : Byte} (ht : execPush b s = .next t) : AnswersErr s t := by
  obtain ⟨e, he, hx⟩ | ⟨-, -, hx⟩ | ⟨-, -, hx⟩ | ⟨he, -, hx⟩ := execPush_cases b s <;>
    cases hx.symm.trans ht
  · exact ⟨rfl, by rw [he]⟩
  · exact ⟨rfl, rfl⟩
  · exact ⟨rfl, by rw [he, errWord_none]⟩

theorem answersErr_of_execStep (ht : execStep s = .next t) : AnswersErr s t := by
  obtain ⟨e, he, hx⟩ | ⟨-, -, hx⟩ | ⟨w, -, -, -, hx⟩ | ⟨w, he, -, -, -, hx⟩ | ⟨w, f, -, -, -, -, -, hx⟩ |
    ⟨w, he, -, -, -, -, hx⟩ := execStep_cases s <;> cases hx.symm.trans ht
  · exact ⟨rfl, by rw [he]⟩
  · exact ⟨rfl, rfl⟩
  · exact ⟨rfl, rfl⟩
  · exact ⟨rfl, by rw [he, errWord_none]⟩
  · exact ⟨rfl, by rw [he, errWord_none]⟩

theorem answersErr_of_execRun (ht : execRun s = .next t) : AnswersErr s t := by
  obtain ⟨e, he, hx⟩ | ⟨-, -, hx⟩ | ⟨w, -, -, -, hx⟩ | ⟨w, f, -, -, -, -, hx⟩ | ⟨w, he, -, -, -, hx⟩ :=
    execRun_cases s <;> cases hx.symm.trans ht
  · exact ⟨rfl, by rw [he]⟩
  · exact ⟨rfl, rfl⟩
  · exact ⟨rfl, rfl⟩
  · exact ⟨rfl, by rw [he, errWord_none]⟩

theorem answersErr_of_execIllegal (ht : execIllegal s = .next t) : AnswersErr s t := by
  obtain he | ⟨e, he⟩ := s.err.eq_none_or_eq_some
  · cases (execIllegal_of_none he).symm.trans ht
    exact ⟨rfl, rfl⟩
  · cases (execIllegal_of_some he).symm.trans ht
    exact ⟨rfl, by rw [he]⟩

theorem answersErr_of_exec {i : Instr} (hi : ∀ q, i ≠ .get q) (ht : exec i s = .next t) :
    AnswersErr s t := by
  cases i with
  | rst => exact answersErr_of_execRst ht
  | cfg w => exact answersErr_of_execCfg ht
  | push b => exact answersErr_of_execPush ht
  | step => exact answersErr_of_execStep ht
  | run => exact answersErr_of_execRun ht
  | get q => exact absurd rfl (hi q)

/-- GET with a legal selector answers the selected value and changes nothing else (R76). -/
theorem execGet_of_selector {q : Byte} {sel : Selector} (hq : selectorOperand q = some sel) :
    execGet q s = .next { s with resp := some (readout sel s) } := by
  simp [execGet, hq, respond]

/-- The selector of a GET that a word decodes to is legal (R42). -/
theorem selectorOperand_of_decode {cw : CmdWord} {q : Byte} (h : decode cw = .ok (.get q)) :
    ∃ sel, selectorOperand q = some sel :=
  Option.isSome_iff_exists.1 ((selectorOperand_isSome q).trans (encode_of_decode h).2)

/-- No selector reads the command port. -/
theorem readout_with_port (sel : Selector) (rest : List CmdWord) :
    readout sel { s with port := rest } = readout sel s := by
  cases sel <;> rfl

/-- Settles O29: an illegal word and every command but GET answer ERR; a decoded GET has a legal selector. -/
theorem everyCommandResponds : Obligations.EveryCommandResponds := by
  intro s t cw rest hp ht
  cases hd : decode cw with
  | error x =>
    rw [step_of_decode_error hp hd] at ht
    obtain ⟨hport, hresp⟩ := answersErr_of_execIllegal ht
    exact ⟨hport, fun _ _ h => (nomatch h), fun _ => hresp⟩
  | ok i =>
    rw [step_of_decode_ok hp hd] at ht
    obtain ⟨q, rfl⟩ | hi := em (∃ q, i = .get q)
    · obtain ⟨sel, hsel⟩ := selectorOperand_of_decode hd
      cases (execGet_of_selector hsel).symm.trans ht
      refine ⟨rfl, ?_, fun h => absurd rfl (h q)⟩
      rintro _ sel' ⟨⟩ hsel'
      obtain rfl : sel = sel' := Option.some.inj (hsel.symm.trans hsel')
      exact congrArg some (readout_with_port sel rest)
    · obtain ⟨hport, hresp⟩ := answersErr_of_exec (not_exists.1 hi) ht
      exact ⟨hport, fun q _ h => absurd ⟨q, Except.ok.inj h⟩ hi, fun _ => hresp⟩

end Sys2Proof
end

section
/-! The pseudo-instructions of the assembler (R48). -/

namespace Sys2Proof

open Sys2Proof.Machine

/-- A word as a number: the operand is added below the opcode (R39, R40). -/
theorem append_eq_add (op imm : Byte) : (op ++ imm : BitVec 16) = (op ++ 0#8) + imm.setWidth 16 := by
  apply BitVec.eq_of_toNat_eq
  have hop := op.isLt
  have himm := imm.isLt
  rw [BitVec.toNat_append, ← Nat.shiftLeft_add_eq_or_of_lt himm]
  simp only [BitVec.toNat_add, BitVec.toNat_append, BitVec.toNat_setWidth, BitVec.toNat_ofNat,
    Nat.shiftLeft_eq, Nat.zero_mod, Nat.or_zero]
  omega

theorem encode_push (b : Byte) : encode (.push b) = 0x0300#16 + b.setWidth 16 := append_eq_add 0x03 b

/-- Settles O27: the words of the two expansions by `encode_push`, the rest by evaluating the assembler. -/
theorem pseudoCommandsExpand : Obligations.PseudoCommandsExpand := by
  refine ⟨fun bytes => ?_, fun n => ?_, fun cs => ⟨rfl, rfl⟩, fun t => ⟨rfl, rfl⟩, rfl⟩
  · rw [expandPushs, List.map_map]
    exact List.map_congr_left fun b _ => encode_push b
  · rw [expandPadx, List.map_replicate]
    rfl

end Sys2Proof
end

section
/-! CFG, PUSH and RST one outcome at a time (R50 to R52): each follows from everything the command can do
(`execCfg_cases` and its like), the other outcomes being shut out by the state or the operand. -/

namespace Sys2Proof

open Sys2Proof.Machine

/-! ### CFG -/

theorem encode_cfg (w : Byte) : encode (.cfg w) = 0x0200#16 + w.setWidth 16 := append_eq_add 0x02 w

/-- The operand that names a width is its number of bits. -/
theorem widthOperand_of_toNat {w : Byte} {bw : BlockWidth} (h : w.toNat = bw.bits) :
    widthOperand w = some bw := by
  obtain rfl : w = BitVec.ofNat 8 bw.bits := h ▸ (BitVec.ofNat_toNat 8 w).symm
  cases bw <;> rfl

theorem widthOperand_eq_none {w : Byte} (h8 : w ≠ 8) (h16 : w ≠ 16) (h32 : w ≠ 32) :
    widthOperand w = none := by
  rw [widthOperand, if_neg h8, if_neg h16, if_neg h32]

section Outcomes

variable {s : State}

theorem execCfg_of_width {w : Byte} {bw : BlockWidth} (he : s.err = none)
    (hw : widthOperand w = some bw) :
    execCfg w s = .next { s with w := some bw, acc := 0, cy := false, blk := 0, resp := some 0 } := by
  obtain ⟨e, he', -⟩ | ⟨-, hw', -⟩ | ⟨bw', -, hw', hx⟩ := execCfg_cases w s
  · cases he.symm.trans he'
  · cases hw.symm.trans hw'
  · cases hw.symm.trans hw'
    exact hx

theorem execCfg_of_no_width {w : Byte} (he : s.err = none) (hw : widthOperand w = none) :
    execCfg w s = .next { s with err := some .configurationError, resp := some 1 } := by
  obtain ⟨e, he', -⟩ | ⟨-, -, hx⟩ | ⟨bw, -, hw', -⟩ := execCfg_cases w s
  · cases he.symm.trans he'
  · exact hx
  · cases hw.symm.trans hw'

/-! ### PUSH -/

theorem execPush_of_room (b : Byte) (he : s.err = none) (hl : s.len < s.maxBytes) :
    execPush b s = .next { s with buf := s.buf.write s.len b, len := s.len + 1, resp := some 0 } := by
  obtain ⟨e, he', -⟩ | ⟨-, hl', -⟩ | ⟨-, hl', -⟩ | ⟨-, -, hx⟩ := execPush_cases b s
  · cases he.symm.trans he'
  · exact absurd hl' hl.ne
  · exact absurd hl' hl.asymm
  · exact hx

theorem execPush_of_full (b : Byte) (he : s.err = none) (hl : s.len = s.maxBytes) :
    execPush b s = .next { s with err := some .bufferOverflow, resp := some 4 } := by
  obtain ⟨e, he', -⟩ | ⟨-, -, hx⟩ | ⟨-, hl', -⟩ | ⟨-, hl', -⟩ := execPush_cases b s
  · cases he.symm.trans he'
  · exact hx
  · exact absurd hl hl'.ne'
  · exact absurd hl hl'.ne

/-- Blocks that fill the record do not fill one that is a byte longer. -/
theorem done_of_longer_record {t : State} (hw : t.w = s.w) (hk : t.blk = s.blk) (hl : t.len = s.len + 1)
    (hd : done s = true) : done t = false := by
  obtain hn | ⟨w, hs⟩ := s.w.eq_none_or_eq_some
  · exact done_of_unconfigured (hw.trans hn)
  · have hfull : s.blk * w.bits = 8 * s.len := (done_iff hs).1 hd
    rw [Bool.eq_false_iff, Ne, done_iff (hw.trans hs), hk, hl]
    omega

/-! ### The error latch -/

/-- Only RST clears ERR: every other command is shut out by the gate, but GET, which writes no register. -/
theorem err_of_exec_latched {t : State} {i : Instr} {e : ErrorKind} (he : s.err = some e) (hi : i ≠ .rst)
    (ht : exec i s = .next t) : t.err = some e := by
  cases i with
  | rst => exact absurd rfl hi
  | cfg | push | step | run =>
    cases (gated_of_some _ he).symm.trans ht
    exact he
  | get q =>
    obtain ⟨sel, -, hx⟩ | ⟨e', -, -, hx⟩ | ⟨-, he', -⟩ := execGet_cases q s
    · cases hx.symm.trans ht
      exact he
    · cases hx.symm.trans ht
      exact he
    · cases he.symm.trans he'

end Outcomes

/-! ### The obligations -/

/-- Settles O31: CFG by what its operand names, behind the gate; DONE is 1 in the first example's STATUS. -/
theorem cfgResult : Obligations.CfgResult :=
  ⟨fun w => ⟨encode_cfg w, decode_encode rfl⟩,
    fun _ _ _ he hw => execCfg_of_width he (widthOperand_of_toNat hw),
    fun _ _ he h8 h16 h32 => execCfg_of_no_width he (widthOperand_eq_none h8 h16 h32),
    fun _ _ _ he => gated_of_some _ he,
    ⟨_, execCfg_of_width (s := State.reset) (w := 16) rfl rfl, rfl, rfl, rfl⟩,
    ⟨_, execCfg_of_no_width (s := State.reset) (w := 24) rfl rfl, rfl, rfl⟩⟩

/-- Settles O32: PUSH by the room left in BUF, behind the gate; DONE falls since the record is longer. -/
theorem pushResult : Obligations.PushResult := by
  refine ⟨fun b => ⟨encode_push b, decode_encode rfl⟩, fun _ b => execPush_of_room b,
    fun _ b => execPush_of_full b, ?_, fun _ _ _ he => gated_of_some _ he,
    execPush_of_room 0x41 rfl (by decide)⟩
  intro s b t he hl hd ht
  cases (execPush_of_room b he hl).symm.trans ht
  exact done_of_longer_record (s := s) rfl rfl rfl hd

/-- Settles O30: RST has one effect, `execRst_eq`, which is hardware reset's but for BUF and the port; the
words beside it are of R43's second kind. -/
theorem rstResult : Obligations.RstResult := by
  refine ⟨rfl, execRst_eq, fun imm himm => ?_, execRst_eq, fun s t i e he ht hn => ?_,
    fun s => execRst_eq _,
    fun s _ => ⟨_, _, execRst_eq s, rfl, execGet_of_selector (q := 1) (sel := .status) rfl,
      congrArg some (statusWord_eq_zero rfl rfl rfl)⟩⟩
  · rw [decode_eq_error_iff, opField_append, immField_append]
    exact .inr (.inr (.inl ⟨.inl rfl, himm⟩))
  · by_contra hi
    cases hn.symm.trans (err_of_exec_latched he hi ht)

end Sys2Proof
end

section
/-! The bit-picker and the source's Bit Expander (R53 to R56): the bits from a byte boundary on are those of the
bytes from there on, and the bits of a byte, read most significant first, are its value. -/

namespace Sys2Proof

open Sys2Proof.Machine

/-! ### Bits most significant first -/

/-- The last bit is the least significant one. -/
theorem bitsToNat_append_singleton (l : List Bool) (b : Bool) :
    bitsToNat (l ++ [b]) = Nat.bit b (bitsToNat l) := by
  rw [Nat.bit_val]
  simp [bitsToNat]

/-- Bits that follow shift those before them up by their number. -/
theorem bitsToNat_append (l m : List Bool) :
    bitsToNat (l ++ m) = bitsToNat l * 2 ^ m.length + bitsToNat m := by
  induction m using List.reverseRecOn with
  | nil => simp [bitsToNat]
  | append_singleton m b ih =>
    rw [← List.append_assoc, bitsToNat_append_singleton, bitsToNat_append_singleton, ih, Nat.bit_val,
      Nat.bit_val, List.length_append, List.length_singleton, Nat.pow_succ]
    ring

theorem bitsToNat_cons (b : Bool) (l : List Bool) :
    bitsToNat (b :: l) = b.toNat * 2 ^ l.length + bitsToNat l := by
  have h := bitsToNat_append [b] l
  rwa [List.singleton_append, show bitsToNat [b] = b.toNat from Nat.zero_add _] at h

/-- Bit i of the number is the i-th bit from the end of the list. -/
theorem testBit_bitsToNat_reverse (l : List Bool) (i : Nat) :
    (bitsToNat l.reverse).testBit i = l.getD i false := by
  induction l generalizing i with
  | nil => simp [bitsToNat]
  | cons b l ih =>
    rw [List.reverse_cons, bitsToNat_append_singleton]
    cases i with
    | zero => simp
    | succ i => rw [Nat.testBit_bit_succ, ih, List.getD_cons_succ]

/-- The first of n bits is the most significant. -/
theorem testBit_bitsToNat_range (f : Nat → Bool) {n j : Nat} (hj : j < n) :
    (bitsToNat ((List.range n).map f)).testBit (n - 1 - j) = f j := by
  have hi : n - 1 - j < n := by omega
  have hback : n - 1 - (n - 1 - j) = j := by omega
  rw [← List.reverse_reverse ((List.range n).map f), testBit_bitsToNat_reverse]
  simp [hi, hback]

/-- The weights of the rules R56 and R58: bit j of n counts 2^(n-1-j). -/
theorem sum_weighted_bits (f : Nat → Bool) (n : Nat) :
    ((List.range n).map fun j => (f j).toNat * 2 ^ (n - 1 - j)).sum =
      bitsToNat ((List.range n).map f) := by
  induction n generalizing f with
  | zero => rfl
  | succ n ih =>
    have hweight (j : Nat) : n + 1 - 1 - (j + 1) = n - 1 - j := by omega
    simp only [List.range_succ_eq_map, List.map_cons, List.map_map, Function.comp_def, List.sum_cons,
      Nat.succ_eq_add_one, hweight, ih fun j => f (j + 1)]
    rw [bitsToNat_cons, List.length_map, List.length_range]
    rfl

/-! ### The bits of the bytes -/

@[simp] theorem length_expandByte (b : Byte) : (expandByte b).length = 8 := by simp [expandByte]

/-- One more byte adds its bits at the end. -/
theorem expandBits_append_singleton (bs : List Byte) (b : Byte) :
    expandBits (bs ++ [b]) = expandBits bs ++ expandByte b := by
  simp [expandBits]

/-- The eight bits of a byte as a number are the byte (R56). -/
theorem bitsToNat_expandByte (b : Byte) : bitsToNat (expandByte b) = b.toNat := by
  have hrev : expandByte b = ((List.range 8).map b.getLsbD).reverse := rfl
  apply Nat.eq_of_testBit_eq
  intro i
  rw [hrev, testBit_bitsToNat_reverse, BitVec.testBit_toNat]
  by_cases hi : i < 8
  · simp [hi]
  · simp [hi, b.getLsbD_of_ge i (Nat.le_of_not_lt hi)]

/-- Position 8 * i + j is bit 7 - j of byte i (R55). -/
theorem bitAt_mul_add (s : State) (i : Nat) {j : Nat} (hj : j < 8) :
    bitAt s (8 * i + j) = (byteAt s i).getLsbD (7 - j) := by
  have hdiv : (8 * i + j) / 8 = i := by omega
  have hmod : (8 * i + j) % 8 = j := by omega
  rw [bitAt, hdiv, hmod]

/-- The bit-picker at the eight positions of one byte. -/
theorem map_bitAt_byte (s : State) (i : Nat) :
    ((List.range 8).map fun j => bitAt s (8 * i + j)) = expandByte (byteAt s i) :=
  List.map_congr_left fun _ hj => bitAt_mul_add s i (List.mem_range.1 hj)

/-- The bit-picker at the positions of n bytes from index a: the Bit Expander over those bytes. -/
theorem map_bitAt_range (s : State) (a n : Nat) :
    ((List.range (8 * n)).map fun j => bitAt s (8 * a + j)) =
      expandBits ((List.range n).map fun i => byteAt s (a + i)) := by
  induction n with
  | zero => rfl
  | succ n ih =>
    have hlast : ((List.range 8).map fun j => bitAt s (8 * a + (8 * n + j))) =
        expandByte (byteAt s (a + n)) := by
      simp only [← map_bitAt_byte, Nat.mul_add, Nat.add_assoc]
    rw [Nat.mul_succ, List.range_add, List.map_append, ih, List.map_map, Function.comp_def, hlast,
      List.range_succ, List.map_append, List.map_singleton, expandBits_append_singleton]

/-- The Bit Expander over the record is the Bit Sequence (R53). -/
theorem expandBits_inputRecord (s : State) :
    expandBits (inputRecord s) = (List.range (8 * s.len)).map (bitAt s) := by
  simpa [inputRecord] using (map_bitAt_range s 0 s.len).symm

/-- Settles O18: the Bit Expander's list is `bitAt` over the positions below 8 * LEN. -/
theorem bitPickerIsBitExpander : Obligations.BitPickerIsBitExpander := by
  refine ⟨fun s => ?_, fun s p hp => ?_, fun s i j => bitAt_mul_add s i, fun _ _ _ => rfl, rfl⟩
  · rw [expandBits_inputRecord, List.length_map, List.length_range]
  · rw [expandBits_inputRecord, List.getElem?_map, List.getElem?_range hp, Option.map_some]

/-- Settles O19: the weighted sum reads the eight bits of the byte back as a number. -/
theorem bitsRegroupToBytes : Obligations.BitsRegroupToBytes := fun s i _ =>
  calc ((List.range 8).map fun j => (bitAt s (8 * i + j)).toNat * 2 ^ (7 - j)).sum
    _ = bitsToNat ((List.range 8).map fun j => bitAt s (8 * i + j)) := sum_weighted_bits _ 8
    _ = bitsToNat (expandByte (byteAt s i)) := congrArg bitsToNat (map_bitAt_byte s i)
    _ = (byteAt s i).toNat := bitsToNat_expandByte _

end Sys2Proof
end

section
/-! The block multiplexer (R58, R59): a block is the number its W bits spell, and so the number its bytes spell. -/

namespace Sys2Proof

open Sys2Proof.Machine

theorem blockAt_eq_bitsToNat (s : State) (w : BlockWidth) (k : Nat) :
    blockAt s w k = bitsToNat ((List.range w.bits).map fun j => bitAt s (k * w.bits + j)) :=
  sum_weighted_bits _ _

theorem testBit_blockAt (s : State) (w : BlockWidth) (k : Nat) {j : Nat} (hj : j < w.bits) :
    (blockAt s w k).testBit (w.bits - 1 - j) = bitAt s (k * w.bits + j) := by
  rw [blockAt_eq_bitsToNat, testBit_bitsToNat_range _ hj]

/-- Settles O20: the bits by `testBit_blockAt`, the cover by dividing the position by W. -/
theorem blocksPartitionTheBits : Obligations.BlocksPartitionTheBits := by
  refine ⟨fun s w k _ => testBit_blockAt s w k, blockAt_lt, fun s w p hl hp => ?_⟩
  have hnum : p / w.bits < numBlocks s w :=
    (Nat.div_lt_iff_lt_mul w.bits_pos).2 (hp.trans_eq (numBlocks_mul hl).symm)
  exact ⟨⟨hnum, Nat.div_mul_le_self .., Nat.lt_div_mul_add w.bits_pos⟩,
    fun _ hlo hhi => (Nat.div_eq_of_lt_le hlo (Nat.succ_mul .. ▸ hhi)).symm⟩

/-! ### Reading bytes -/

/-- Bytes read big-endian are the number their bits spell (R29). -/
theorem memRead_eq_bitsToNat (s : State) (a n : Nat) :
    memRead s a n = bitsToNat (expandBits ((List.range n).map fun i => byteAt s (a + i))) := by
  induction n with
  | zero => rfl
  | succ n ih =>
    rw [memRead, ih, List.range_succ, List.map_append, List.map_singleton, expandBits_append_singleton,
      bitsToNat_append, length_expandByte, bitsToNat_expandByte]
    rfl

theorem blockAt_eq_memRead (s : State) (w : BlockWidth) (k : Nat) :
    blockAt s w k = memRead s (k * w.bytes) w.bytes := by
  rw [blockAt_eq_bitsToNat, memRead_eq_bitsToNat, ← map_bitAt_range, BlockWidth.bits_eq,
    Nat.mul_left_comm k 8]

/-- A byte behind a bit vector moves it up by a factor of 256. -/
theorem toNat_append_byte {n : Nat} (x : BitVec n) (b : Byte) : (x ++ b).toNat = x.toNat * 256 + b.toNat := by
  rw [BitVec.toNat_append, ← Nat.shiftLeft_add_eq_or_of_lt b.isLt, Nat.shiftLeft_eq]

/-- A read of one more byte puts that byte behind what was read (R29). -/
theorem memRead_succ_of_eq {s : State} {a n m : Nat} {x : BitVec m} (h : memRead s a n = x.toNat) :
    memRead s a (n + 1) = (x ++ byteAt s (a + n)).toNat := by
  rw [memRead, h, toNat_append_byte]

theorem memRead_one (s : State) (a : Nat) : memRead s a 1 = (byteAt s a).toNat := by
  simp [memRead]

/-- Settles O21: the block's bits are those of its bytes, and each byte read is put behind the ones before it. -/
theorem blockIsBigEndianRead : Obligations.BlockIsBigEndianRead := by
  refine ⟨blockAt_eq_memRead, memRead_one, fun s a => memRead_succ_of_eq (memRead_one s a),
    fun s a => memRead_succ_of_eq (memRead_succ_of_eq (memRead_succ_of_eq (memRead_one s a))), fun s k => ?_,
    fun s hs => ?_⟩
  · have hbytes : BlockWidth.w8.bytes = 1 := rfl
    rw [blockAt_eq_memRead, hbytes, Nat.mul_one, memRead_one]
  · have hblock (w : BlockWidth) (k : Nat) : blockAt s w k =
        blockAt { State.reset with buf := [(0, 0x41), (1, 0x42), (2, 0x0A), (3, 0x58)] } w k :=
      blockAt_congr w k fun _ _ _ => congrArg (Memory.read · _) hs
    simp only [hblock]
    decide

end Sys2Proof
end

section
/-! The end-around-carry adder (R64 to R66): the number its two results spell determines them, which gives its
exactness, its corner cases and, with the same fact about the ripple of full adders, their agreement. -/

namespace Sys2Proof

open Sys2Proof.Machine

/-! ### The word form -/

/-- A result of W bits and a carry that spell the sum are the adder's. -/
theorem addEAC_eq_of_exact {w acc b a : Nat} {cin c : Bool} (ha : a < 2 ^ w)
    (hsum : a + 2 ^ w * c.toNat = acc + b + cin.toNat) : addEAC w acc b cin = (a, c) := by
  have hmod : (acc + b + cin.toNat) % 2 ^ w = a := by
    rw [← hsum, Nat.add_mul_mod_self_left, Nat.mod_eq_of_lt ha]
  have hdiv : (acc + b + cin.toNat) / 2 ^ w = c.toNat := by
    rw [← hsum, Nat.add_mul_div_left _ _ (Nat.two_pow_pos w), Nat.div_eq_of_lt ha, Nat.zero_add]
  rw [addEAC, hmod, hdiv]
  cases c <;> rfl

/-- The carry out is the quotient by 2^W. -/
theorem toNat_addEAC_snd {w acc b : Nat} (cin : Bool) (ha : acc < 2 ^ w) (hb : b < 2 ^ w) :
    (addEAC w acc b cin).2.toNat = (acc + b + cin.toNat) / 2 ^ w := by
  have hlt : (addEAC w acc b cin).1 < 2 ^ w := addEAC_fst_lt ..
  rw [← addEAC_exact cin ha hb, Nat.add_mul_div_left _ _ (Nat.two_pow_pos w), Nat.div_eq_of_lt hlt,
    Nat.zero_add]

/-- The carry out is bit W of the sum. -/
theorem addEAC_snd_eq_testBit {w acc b : Nat} (cin : Bool) (ha : acc < 2 ^ w) (hb : b < 2 ^ w) :
    (addEAC w acc b cin).2 = (acc + b + cin.toNat).testBit w := by
  rw [Nat.testBit_eq_decide_div_mod_eq, ← toNat_addEAC_snd cin ha hb]
  cases (addEAC w acc b cin).2 <;> rfl

theorem sum_le {w acc b : Nat} (cin : Bool) (ha : acc < 2 ^ w) (hb : b < 2 ^ w) :
    acc + b + cin.toNat ≤ 2 ^ (w + 1) - 1 := by
  have h := sum_lt cin ha hb
  rw [Nat.pow_succ]
  omega

/-- Settles O36, clause by clause. -/
theorem adderIsExact : Obligations.AdderIsExact := fun _ _ _ cin ha hb =>
  ⟨addEAC_exact cin ha hb, rfl, toNat_addEAC_snd cin ha hb, sum_le cin ha hb,
    addEAC_snd_eq_testBit cin ha hb⟩

/-- Settles O38: the bounds by the laws of the adder, each corner case by the number its results spell. -/
theorem adderBounds : Obligations.AdderBounds := by
  have hpos (w : Nat) : 1 ≤ 2 ^ w := Nat.two_pow_pos w
  refine ⟨fun _ _ _ cin ha hb => ⟨sum_le cin ha hb, addEAC_fst_lt ..⟩,
    fun w => addEAC_eq_of_exact (hpos w) ?_,
    fun w => addEAC_eq_of_exact (Nat.sub_one_lt_of_le (hpos w) le_rfl) ?_⟩
  · rw [Bool.toNat_true, Nat.sub_add_cancel (hpos w), Nat.zero_add, Nat.mul_one]
  · rw [Bool.toNat_true, Nat.mul_one, Nat.add_assoc, Nat.sub_add_cancel (hpos w)]

/-! ### The bit-serial form -/

/-- A full adder: its sum bit and, at twice the weight, its carry out count its three inputs (R65). -/
theorem fullAdder_exact (a b c : Bool) :
    ((a.xor b).xor c).toNat + 2 * (majority a b c).toNat = a.toNat + b.toNat + c.toNat := by
  revert a b c
  decide

/-- Bits at rising weights spell the number of those bits read from the last one. -/
theorem sum_rising_bits (f : Nat → Bool) (n : Nat) :
    ((List.range n).map fun i => (f i).toNat * 2 ^ i).sum = bitsToNat ((List.range n).map f).reverse := by
  induction n with
  | zero => rfl
  | succ n ih =>
    simp only [List.range_succ, List.map_append, List.sum_append, List.reverse_append, ih, List.map_singleton,
      List.sum_singleton, List.reverse_singleton, List.singleton_append, bitsToNat_cons, List.length_reverse,
      List.length_map, List.length_range]
    exact Nat.add_comm ..

section Ripple

variable (w acc b : Nat) (cin : Bool)

/-- Bit i of the ripple's sum is full adder i's sum bit, and there are W of them. -/
theorem testBit_rippleAdd_fst (i : Nat) :
    (rippleAdd w acc b cin).1.testBit i = (decide (i < w) && rippleSumBit acc b cin i) := by
  rw [rippleAdd, sum_rising_bits, testBit_bitsToNat_reverse]
  by_cases hi : i < w <;> simp [hi]

theorem rippleAdd_fst_lt : (rippleAdd w acc b cin).1 < 2 ^ w :=
  Nat.lt_pow_two_of_testBit _ fun i hi => by simp [testBit_rippleAdd_fst, hi.not_gt]

/-- One more full adder adds its sum bit at the top. -/
theorem rippleAdd_succ_fst :
    (rippleAdd (w + 1) acc b cin).1 =
      (rippleAdd w acc b cin).1 + (rippleSumBit acc b cin w).toNat * 2 ^ w := by
  simp [rippleAdd, List.range_succ]

/-- W full adders lose nothing of the low W bits of the operands. -/
theorem rippleAdd_exact :
    (rippleAdd w acc b cin).1 + 2 ^ w * (rippleAdd w acc b cin).2.toNat =
      acc % 2 ^ w + b % 2 ^ w + cin.toNat := by
  induction w with
  | zero => simp [rippleAdd, rippleCarry, Nat.mod_one]
  | succ w ih =>
    have hadder : (rippleSumBit acc b cin w).toNat + 2 * (rippleAdd (w + 1) acc b cin).2.toNat =
        (acc.testBit w).toNat + (b.testBit w).toNat + (rippleAdd w acc b cin).2.toNat :=
      fullAdder_exact ..
    calc (rippleAdd (w + 1) acc b cin).1 + 2 ^ (w + 1) * (rippleAdd (w + 1) acc b cin).2.toNat
      _ = (rippleAdd w acc b cin).1 + 2 ^ w *
            ((rippleSumBit acc b cin w).toNat + 2 * (rippleAdd (w + 1) acc b cin).2.toNat) := by
          rw [rippleAdd_succ_fst]; ring
      _ = (rippleAdd w acc b cin).1 + 2 ^ w * (rippleAdd w acc b cin).2.toNat +
            2 ^ w * (acc.testBit w).toNat + 2 ^ w * (b.testBit w).toNat := by
          rw [hadder]; ring
      _ = acc % 2 ^ (w + 1) + b % 2 ^ (w + 1) + cin.toNat := by
          rw [ih, Nat.mod_pow_succ, Nat.mod_pow_succ, Nat.toNat_testBit, Nat.toNat_testBit]; ring

end Ripple

/-- Both forms of the adder give the same result and carry out (R65). -/
theorem rippleAdd_eq_addEAC {w acc b : Nat} (cin : Bool) (ha : acc < 2 ^ w) (hb : b < 2 ^ w) :
    rippleAdd w acc b cin = addEAC w acc b cin := by
  have hsum := rippleAdd_exact w acc b cin
  rw [Nat.mod_eq_of_lt ha, Nat.mod_eq_of_lt hb] at hsum
  exact (addEAC_eq_of_exact (rippleAdd_fst_lt ..) hsum).symm

/-- The two equations of R65 determine every carry. -/
theorem eq_rippleCarry {acc b : Nat} {cin : Bool} {c : Nat → Bool} (hzero : c 0 = cin)
    (hsucc : ∀ i, c (i + 1) = majority (acc.testBit i) (b.testBit i) (c i)) (i : Nat) :
    c i = rippleCarry acc b cin i := by
  induction i with
  | zero => exact hzero
  | succ i ih => rw [hsucc, ih, rippleCarry]

/-- Settles O37: the two forms agree, and carries that meet the rule's equations are the ripple's. -/
theorem bitSerialAdderAgrees : Obligations.BitSerialAdderAgrees := by
  intro w acc b cin ha hb
  refine ⟨rippleAdd_eq_addEAC cin ha hb, fun c hzero hsucc => ?_⟩
  rw [← rippleAdd_eq_addEAC cin ha hb]
  refine ⟨fun i hi => ?_, (eq_rippleCarry hzero hsucc w).symm⟩
  rw [testBit_rippleAdd_fst, decide_eq_true hi, Bool.true_and, rippleSumBit, eq_rippleCarry hzero hsucc]

end Sys2Proof
end

section
/-! The sum over the blocks: its closed form (R71), the sum of zero bytes (R75), and that it is the source's
algorithm over the record (R62). -/

namespace Sys2Proof

open Sys2Proof.Machine

/-! ### The closed form -/

/-- The weight of a carry out is what it gives back as a carry in, and 2^W - 1 besides. -/
theorem two_pow_mul_eq (w c : Nat) : 2 ^ w * c = c + (2 ^ w - 1) * c := by
  rw [Nat.sub_mul, Nat.one_mul, Nat.add_sub_cancel' (Nat.le_mul_of_pos_left c (Nat.two_pow_pos w))]

section ClosedForm

variable (s : State) (w : BlockWidth) (n : Nat)

/-- One addition loses nothing of the sum so far, the carry in and the block. -/
theorem sumBlocks_succ_exact :
    (sumBlocks s w (n + 1)).1 + 2 ^ w.bits * (sumBlocks s w (n + 1)).2.toNat =
      (sumBlocks s w n).1 + blockAt s w n + (sumBlocks s w n).2.toNat :=
  addEAC_exact _ (sumBlocks_fst_lt s w n) (blockAt_lt s w n)

theorem exactSum_succ : exactSum s w (n + 1) = exactSum s w n + blockAt s w n := by
  simp [exactSum, List.range_succ]

theorem carriesOut_succ :
    carriesOut s w (n + 1) = carriesOut s w n + (sumBlocks s w (n + 1)).2.toNat := by
  rw [carriesOut, List.range_succ, List.filter_append, List.length_append]
  cases h : (sumBlocks s w (n + 1)).2 <;> simp [h, carriesOut]

/-- The carries among the first n additions: those among the first n - 1, and the one latched. -/
theorem carriesOut_eq_pred_add :
    carriesOut s w n = carriesOut s w (n - 1) + (sumBlocks s w n).2.toNat := by
  cases n with
  | zero => rfl
  | succ n => exact carriesOut_succ s w n

/-- Each carry out takes 2^W from the accumulator and gives 1 back, so each costs the sum 2^W - 1. -/
theorem sumBlocks_closed_form :
    (sumBlocks s w n).1 + (sumBlocks s w n).2.toNat + (2 ^ w.bits - 1) * carriesOut s w n =
      exactSum s w n := by
  induction n with
  | zero => rfl
  | succ n ih =>
    have hadd := sumBlocks_succ_exact s w n
    rw [two_pow_mul_eq] at hadd
    rw [exactSum_succ, ← ih, carriesOut_succ, Nat.mul_add]
    omega

end ClosedForm

/-- Settles O43: the last carry is split off the closed form for the first clause and multiples of 2^W - 1
are dropped for the second; without a carry none is latched either. -/
theorem closedFormOfTheSum : Obligations.ClosedFormOfTheSum := by
  intro s w hpartial hw
  obtain ⟨hacc, hcy⟩ := Prod.mk.inj (hpartial w hw)
  have hclosed := sumBlocks_closed_form s w s.blk
  have hlast := carriesOut_eq_pred_add s w s.blk
  rw [← hacc, ← hcy] at hclosed
  rw [← hcy] at hlast
  refine ⟨?_, ?_, fun hnone => ?_⟩
  · rw [← hclosed, hlast, Nat.mul_add, two_pow_mul_eq]
    omega
  · rw [← hclosed, Nat.add_mul_mod_self_left]
  · rw [hnone] at hclosed hlast
    omega

/-! ### Zero bytes -/

theorem memRead_eq_zero {s : State} {a n : Nat} (h : ∀ i, i < n → byteAt s (a + i) = 0) :
    memRead s a n = 0 := by
  induction n with
  | zero => rfl
  | succ n ih =>
    rw [memRead, ih fun i hi => h i (Nat.lt_succ_of_lt hi), h n n.lt_succ_self]
    rfl

/-- A zero block without a carry in changes nothing (R67). -/
theorem addEAC_zero_block {w acc : Nat} (h : acc < 2 ^ w) : addEAC w acc 0 false = (acc, false) :=
  addEAC_eq_of_exact h rfl

/-- Blocks of zero bytes add nothing and carry nothing. -/
theorem sumBlocks_of_zero_bytes {s : State} {w : BlockWidth} {n : Nat}
    (h : ∀ a, a < n * w.bytes → byteAt s a = 0) : sumBlocks s w n = (0, false) := by
  induction n with
  | zero => rfl
  | succ n ih =>
    rw [Nat.succ_mul] at h
    have hblock : blockAt s w n = 0 := by
      rw [blockAt_eq_memRead]
      exact memRead_eq_zero fun i hi => h _ (Nat.add_lt_add_left hi _)
    rw [sumBlocks_succ, ih fun a ha => h a (Nat.lt_add_right _ ha), hblock,
      addEAC_zero_block (Nat.two_pow_pos _)]

/-! ### The source's algorithm -/

/-- Cutting the bits at positions 0, 1, 2, ...: block k starts at position k * W. -/
theorem cutBlocks_map_range (w n : Nat) (f : Nat → Bool) :
    cutBlocks w n ((List.range (n * w)).map f) =
      (List.range n).map fun k => bitsToNat ((List.range w).map fun j => f (k * w + j)) := by
  induction n generalizing f with
  | zero => rfl
  | succ n ih =>
    have hsplit : (List.range ((n + 1) * w)).map f =
        (List.range w).map f ++ (List.range (n * w)).map fun p => f (w + p) := by
      rw [Nat.succ_mul, Nat.add_comm, List.range_add, List.map_append, List.map_map, Function.comp_def]
    have hlen : ((List.range w).map f).length = w := by simp
    rw [hsplit, cutBlocks, List.take_left' hlen, List.drop_left' hlen, ih, List.range_succ_eq_map,
      List.map_cons, List.map_map]
    simp [Function.comp_def, Nat.succ_mul, Nat.add_comm, Nat.add_left_comm]

/-- The blocks that the source cuts out of a whole record are those of the block multiplexer. -/
theorem cutBlocks_inputRecord {s : State} {w : BlockWidth} (h : 8 * s.len % w.bits = 0) :
    cutBlocks w.bits (numBlocks s w) (expandBits (inputRecord s)) =
      (List.range (numBlocks s w)).map (blockAt s w) := by
  rw [expandBits_inputRecord, ← numBlocks_mul h, cutBlocks_map_range]
  exact List.map_congr_left fun k _ => (blockAt_eq_bitsToNat s w k).symm

/-- Bit-serial additions over the blocks give the machine's sum. -/
theorem blockSummer_blocks (s : State) (w : BlockWidth) (n : Nat) :
    blockSummer w.bits ((List.range n).map (blockAt s w)) = sumBlocks s w n := by
  induction n with
  | zero => rfl
  | succ n ih =>
    rw [blockSummer] at ih ⊢
    rw [List.range_succ, List.map_append, List.foldl_append, ih, sumBlocks_succ]
    exact rippleAdd_eq_addEAC _ (sumBlocks_fst_lt s w n) (blockAt_lt s w n)

/-- The source's checksum of a whole record is the sum of its NBLK blocks. -/
theorem sourceSum_inputRecord {s : State} {w : BlockWidth} (h : 8 * s.len % w.bits = 0) :
    sourceSum w.bits (inputRecord s) = sumBlocks s w (numBlocks s w) := by
  have hlen : (inputRecord s).length = s.len := by simp [inputRecord]
  rw [← blockSummer_blocks, ← cutBlocks_inputRecord h, sourceSum, hlen]
  rfl

end Sys2Proof
end

section
/-! STEP and RUN one outcome at a time (R67, R68): each follows from everything the command can do
(`execStep_cases`, `execRun_cases`), the other outcomes being shut out by the state. Then what the two leave in
ACC and CY (R62, R70, R75), and that RUN is CFG followed by STEPs (R69). -/

namespace Sys2Proof

open Sys2Proof.Machine

/-- `s` once the first n blocks of its record have been added from ACC = 0 and CY = 0, and 0 answered. -/
def blocksAdded (s : State) (w : BlockWidth) (n : Nat) : State :=
  { s with
    acc := BitVec.ofNat 32 (sumBlocks s w n).1
    cy := (sumBlocks s w n).2
    blk := n
    resp := some 0 }

section Outcomes

variable {s : State} {w : BlockWidth} (he : s.err = none)
include he

/-! ### The two errors -/

theorem execStep_of_no_width (hw : s.w = none) :
    execStep s = .next { s with err := some .configurationError, resp := some 1 } := by
  simpa [he, hw] using execStep_cases s

theorem execRun_of_no_width (hw : s.w = none) :
    execRun s = .next { s with err := some .configurationError, resp := some 1 } := by
  simpa [he, hw] using execRun_cases s

variable (hw : s.w = some w)
include hw

theorem execStep_of_partial_block (hl : 8 * s.len % w.bits ≠ 0) :
    execStep s = .next { s with err := some .invalidInputLength, resp := some 3 } := by
  simpa [he, hw, hl] using execStep_cases s

theorem execRun_of_partial_block (hl : 8 * s.len % w.bits ≠ 0) :
    execRun s = .next { s with err := some .invalidInputLength, resp := some 3 } := by
  simpa [he, hw, hl] using execRun_cases s

variable (hl : 8 * s.len % w.bits = 0)
include hl

/-! ### The additions -/

theorem execStep_of_all_added (hb : s.blk * w.bits = 8 * s.len) :
    execStep s = .next { s with resp := some 0 } := by
  simpa [he, hw, hl, hb] using execStep_cases s

/-- Where a block is left its bytes are read without a fault, and ACC has no bit above W to lose. -/
theorem StateInv.execStep_of_block_left (h : StateInv s) (hb : s.blk * w.bits ≠ 8 * s.len) :
    execStep s = .next { s with
      acc := BitVec.ofNat 32 (addEAC w.bits s.acc.toNat (blockAt s w s.blk) s.cy).1
      cy := (addEAC w.bits s.acc.toNat (blockAt s w s.blk) s.cy).2
      blk := s.blk + 1
      resp := some 0 } := by
  have hread : checkRead s (s.blk * w.bytes) w.bytes = none :=
    h.checkRead_eq_none (h.room hw hl hb).1
  have hacc : s.acc.toNat % 2 ^ w.bits = s.acc.toNat := Nat.mod_eq_of_lt (h.accFits w hw)
  simpa [he, hw, hl, hb, hread, hacc] using execStep_cases s

theorem execRun_of_unreadable {f : Fault} (hc : checkRead s 0 s.len = some f) :
    execRun s = .fault f := by
  simpa [he, hw, hl, hc] using execRun_cases s

theorem execRun_of_readable (hc : checkRead s 0 s.len = none) :
    execRun s = .next (blocksAdded s w (numBlocks s w)) := by
  simpa [he, hw, hl, hc, blocksAdded] using execRun_cases s

theorem StateInv.execRun_of_whole (h : StateInv s) :
    execRun s = .next (blocksAdded s w (numBlocks s w)) :=
  execRun_of_readable he hw hl (h.checkRead_eq_none (Nat.zero_add _).le)

end Outcomes

/-- A number of W bits fits ACC (R13). -/
theorem toNat_ofNat_of_fits {w : BlockWidth} {a : Nat} (ha : a < 2 ^ w.bits) :
    (BitVec.ofNat 32 a).toNat = a := by
  have hw : 2 ^ w.bits ≤ 2 ^ 32 := by cases w <;> decide
  rw [BitVec.toNat_ofNat, Nat.mod_eq_of_lt (ha.trans_le hw)]

/-! ### The state after n additions -/

section BlocksAdded

variable (s : State) (w : BlockWidth) (n : Nat)

/-- The registers that an addition writes do not matter to the sum. -/
theorem blocksAdded_of_registers (a : BitVec 32) (c : Bool) (k : Nat) (r : Option RespWord) :
    blocksAdded { s with acc := a, cy := c, blk := k, resp := r } w n = blocksAdded s w n := by
  have hsum : sumBlocks { s with acc := a, cy := c, blk := k, resp := r } w n = sumBlocks s w n :=
    sumBlocks_congr w n fun _ _ => rfl
  rw [blocksAdded, hsum]
  rfl

theorem blocksAdded_acc_toNat : (blocksAdded s w n).acc.toNat = (sumBlocks s w n).1 :=
  toNat_ofNat_sum s w n

variable {s w n}

theorem StateInv.blocksAdded_keeps (h : StateInv s) (hw : s.w = some w) (hn : n ≤ numBlocks s w) :
    StateInv (blocksAdded s w n) :=
  (h.with_sum hw _ (sumBlocks_fst_lt s w n)
    ((Nat.le_div_iff_mul_le w.bits_pos).1 hn)).with_err_port_resp _ _ _

/-- A block has at least one byte, so there are no more blocks than bytes. -/
theorem StateInv.numBlocks_le (h : StateInv s) (hl : 8 * s.len % w.bits = 0) :
    numBlocks s w ≤ s.maxBytes :=
  calc numBlocks s w
    _ ≤ numBlocks s w * w.bytes := Nat.le_mul_of_pos_right _ w.bytes_pos
    _ = s.len := numBlocks_mul_bytes hl
    _ ≤ s.maxBytes := h.lenBound

theorem widthOperand_cfgOperand (w : BlockWidth) : widthOperand (cfgOperand w) = some w := by
  cases w <;> rfl

/-- CFG at the width that is configured starts the computation again, with no block added. -/
theorem execCfg_restarts (he : s.err = none) (hw : s.w = some w) :
    execCfg (cfgOperand w) s = .next (blocksAdded s w 0) := by
  rw [execCfg_of_width he (widthOperand_cfgOperand w), ← hw]
  rfl

section Steps

variable (h : StateInv s) (he : s.err = none) (hw : s.w = some w) (hl : 8 * s.len % w.bits = 0)
include h he hw hl

theorem execStep_blocksAdded (hn : n < numBlocks s w) :
    execStep (blocksAdded s w n) = .next (blocksAdded s w (n + 1)) := by
  have hleft : n * w.bits ≠ 8 * s.len := by
    rw [← numBlocks_mul hl]
    exact (Nat.mul_lt_mul_of_pos_right hn w.bits_pos).ne
  have hblock : blockAt (blocksAdded s w n) w n = blockAt s w n := blockAt_congr w n fun _ _ _ => rfl
  have hstep := StateInv.execStep_of_block_left (s := blocksAdded s w n) he hw hl
    (h.blocksAdded_keeps hw hn.le) hleft
  rw [blocksAdded_acc_toNat] at hstep
  rw [hstep, show (blocksAdded s w n).blk = n from rfl, hblock]
  rfl

theorem execAll_steps (k : Nat) (hn : n + k ≤ numBlocks s w) :
    execAll (List.replicate k .step) (blocksAdded s w n) = .next (blocksAdded s w (n + k)) := by
  induction k generalizing n with
  | zero => rfl
  | succ k ih =>
    have hnext : n + (k + 1) = n + 1 + k := Nat.add_right_comm n k 1
    rw [hnext] at hn ⊢
    have hstep : exec .step (blocksAdded s w n) = .next (blocksAdded s w (n + 1)) :=
      execStep_blocksAdded h he hw hl (by omega)
    rw [List.replicate_succ, execAll_cons_of_next hstep, ih hn]

end Steps
end BlocksAdded

section Repeated

variable {s : State} {w : BlockWidth} (he : s.err = none) (hw : s.w = some w)
  (hl : 8 * s.len % w.bits = 0)
include he hw hl

/-- RUN starts anew, whatever was added before. -/
theorem execRun_of_registers (a : BitVec 32) (c : Bool) (k : Nat) :
    execRun { s with acc := a, cy := c, blk := k } = execRun s := by
  cases hread : checkRead s 0 s.len with
  | some f =>
    exact (execRun_of_unreadable (s := { s with acc := a, cy := c, blk := k }) he hw hl hread).trans
      (execRun_of_unreadable he hw hl hread).symm
  | none =>
    have hrun := execRun_of_readable (s := { s with acc := a, cy := c, blk := k }) he hw hl hread
    rw [blocksAdded_of_registers] at hrun
    exact hrun.trans (execRun_of_readable he hw hl hread).symm

/-- RUN at a state that RUN has left changes nothing. -/
theorem execRun_of_execRun {t : State} (ht : execRun s = .next t) : execRun t = .next t := by
  cases hread : checkRead s 0 s.len with
  | some f => cases (execRun_of_unreadable he hw hl hread).symm.trans ht
  | none =>
    cases (execRun_of_readable he hw hl hread).symm.trans ht
    have hrun := execRun_of_readable (s := blocksAdded s w (numBlocks s w)) he hw hl hread
    exact hrun.trans (congrArg _ (blocksAdded_of_registers ..))

end Repeated

/-! ### The obligations -/

/-- Settles O39: CFG leaves no block added, each STEP adds one, and RUN leaves them all added. -/
theorem runIsCfgThenSteps : Obligations.RunIsCfgThenSteps := by
  intro s w h he hw hl
  have hcfg : exec (.cfg (cfgOperand w)) s = .next (blocksAdded s w 0) := execCfg_restarts he hw
  have hsteps := execAll_steps h he hw hl (numBlocks s w) (Nat.zero_add _).le
  rw [Nat.zero_add] at hsteps
  exact ⟨_, StateInv.execRun_of_whole he hw hl h, (execAll_cons_of_next hcfg).trans hsteps⟩

/-- Settles O41: RUN leaves the sum of the blocks, which is the source's checksum of the record. -/
theorem runIsSourceChecksum : Obligations.RunIsSourceChecksum := by
  intro s w h he hw hl
  refine ⟨_, StateInv.execRun_of_whole he hw hl h, ?_, ?_, rfl, numBlocks_mul hl⟩
  · rw [sourceSum_inputRecord hl, blocksAdded_acc_toNat]
    rfl
  · rw [blocksAdded_acc_toNat]
    exact sumBlocks_fst_lt ..

/-- Settles O33: STEP by what its checks find, behind the gate; a zero block leaves ACC and CY to be added. -/
theorem stepResult : Obligations.StepResult := by
  refine ⟨⟨rfl, rfl⟩, fun _ => execStep_of_no_width, fun _ _ => execStep_of_partial_block,
    fun _ _ => execStep_of_all_added, fun s w h he hw hl hb => ⟨?_, ?_⟩,
    fun s w h he hw hl hb hzero => ?_, fun _ _ he => gated_of_some _ he, rfl⟩
  · rw [← addEAC_snd s.cy (h.accFits w hw) (blockAt_lt ..)]
    exact StateInv.execStep_of_block_left he hw hl h hb
  · obtain ⟨-, hroom⟩ := h.room hw hl hb
    rwa [Nat.succ_mul] at hroom
  · refine ⟨_, StateInv.execStep_of_block_left he hw hl h hb, ?_, fun hcy => ?_⟩
    · rw [toNat_ofNat_of_fits (addEAC_fst_lt ..), hzero]
      rfl
    · rw [hzero, hcy, addEAC_zero_block (h.accFits w hw)]
      exact ⟨BitVec.ofNat_toNat .., rfl⟩

/-- Settles O34: RUN by what its checks find, behind the gate; what it leaves depends on the record and the
width alone, and they are as before. -/
theorem runResult : Obligations.RunResult := by
  refine ⟨⟨rfl, rfl⟩, fun _ => execRun_of_no_width, fun _ _ => execRun_of_partial_block,
    fun s w h he hw hl => ⟨StateInv.execRun_of_whole he hw hl h, h.numBlocks_le hl⟩,
    fun s w => ⟨rfl, sumBlocks_succ s w⟩, fun s w he hw hlen => ?_, fun s w a c k hw hl he => ?_,
    fun s t w he hw hl ht => ?_, fun _ _ he => gated_of_some _ he, fun s hs => ?_, rfl⟩
  · have hl : 8 * s.len % w.bits = 0 := by simp [hlen]
    have hnum : numBlocks s w = 0 := by simp [numBlocks, hlen]
    have hread : checkRead s 0 s.len = none := checkRead_eq_none.2 (by simp [hlen])
    have hrun := execRun_of_readable he hw hl hread
    rwa [hnum] at hrun
  · exact execRun_of_registers he hw hl a c k
  · exact execRun_of_execRun he hw hl ht
  · have hsum (n : Nat) : sumBlocks s .w8 n =
        sumBlocks { State.reset with buf := [(0, 0x41), (1, 0x42), (2, 0x0A)] } .w8 n :=
      sumBlocks_of_buf hs .w8 n
    simp only [hsum]
    decide

/-- Settles O42: the last of the n + 1 additions gives ACC its low bits and CY its carry; GET SUM reads ACC. -/
theorem lastCarryDropped : Obligations.LastCarryDropped := by
  refine ⟨fun s t w n h he hw hlen ht => ?_, fun _ _ => rfl, rfl⟩
  have hl : 8 * s.len % w.bits = 0 := hlen ▸ Nat.mul_mod_left ..
  have hnum : numBlocks s w = n + 1 := Nat.div_eq_of_eq_mul_left w.bits_pos hlen
  cases (StateInv.execRun_of_whole he hw hl h).symm.trans ht
  rw [blocksAdded_acc_toNat, hnum]
  exact ⟨rfl, addEAC_snd _ (sumBlocks_fst_lt ..) (blockAt_lt ..)⟩

/-- Settles O45: the sum over zero bytes is 0 with no carry. -/
theorem zeroRecordSumsToZero : Obligations.ZeroRecordSumsToZero := by
  intro s w h he hw hl hzero
  have hsum : sumBlocks s w (numBlocks s w) = (0, false) :=
    sumBlocks_of_zero_bytes fun a ha => by
      rw [byteAt, hzero a (numBlocks_mul_bytes hl ▸ ha), Option.getD_some]
  refine ⟨_, StateInv.execRun_of_whole he hw hl h, ?_, ?_⟩ <;> simp [blocksAdded, hsum]

end Sys2Proof
end

section
/-! The checksum depends on the width and the bytes alone (R74): two units that have the same registers and the
same record answer CFG, PUSH and RUN alike and stay so, and RST makes any two units of one capacity so. -/

namespace Sys2Proof

open Sys2Proof.Machine

/-- Two units with the same registers, whose BUF holds the same bytes at the indices below LEN, all of which
exist. -/
structure SameRecord (s t : State) : Prop where
  registers : ∃ m p r, t = { s with buf := m, port := p, resp := r }
  lenBound : s.len ≤ s.maxBytes
  record : ∀ a, a < s.len → ∃ b, s.buf.read a = some b ∧ t.buf.read a = some b

/-- Both commands are answered, and the units have the same record afterwards. -/
def BothAnswer (o o' : Out) : Prop := ∃ t t', o = .next t ∧ o' = .next t' ∧ SameRecord t t'

theorem BothAnswer.execAll_cons {i : Instr} {is : List Instr} {s s' : State}
    (h : BothAnswer (exec i s) (exec i s'))
    (hrest : ∀ t t', SameRecord t t' → BothAnswer (execAll is t) (execAll is t')) :
    BothAnswer (execAll (i :: is) s) (execAll (i :: is) s') := by
  obtain ⟨t, t', ht, ht', hrec⟩ := h
  rw [execAll_cons_of_next ht, execAll_cons_of_next ht']
  exact hrest t t' hrec

/-- A record that exists and holds values can be read whole. -/
theorem checkRead_record {s : State} (hlen : s.len ≤ s.maxBytes)
    (h : ∀ a, a < s.len → ∃ b, s.buf.read a = some b) : checkRead s 0 s.len = none := by
  rw [checkRead_eq_none, Nat.zero_add]
  refine ⟨hlen, fun a ha => ?_⟩
  rw [Nat.zero_add]
  exact Option.isSome_iff_exists.2 (h a ha)

/-- Bytes that two memories share below an index, and one more written there to both. -/
theorem shared_bytes_write {m m' : Memory} {n : Nat}
    (h : ∀ a, a < n → ∃ b, m.read a = some b ∧ m'.read a = some b) (b : Byte) :
    ∀ a, a < n + 1 → ∃ b', (m.write n b).read a = some b' ∧ (m'.write n b).read a = some b' := by
  intro a ha
  obtain rfl | hne := eq_or_ne a n
  · exact ⟨b, Memory.read_write_same .., Memory.read_write_same ..⟩
  · rw [Memory.read_write_other _ b hne, Memory.read_write_other _ b hne]
    exact h a (Nat.lt_of_le_of_ne (Nat.le_of_lt_succ ha) hne)

/-- RST empties the record and leaves nothing of the registers but the capacity. -/
theorem bothAnswer_rst {s s' : State} (hm : s.maxBytes = s'.maxBytes) :
    BothAnswer (exec .rst s) (exec .rst s') :=
  ⟨_, _, execRst_eq s, execRst_eq s', ⟨s'.buf, s'.port, some 0, by simp only [hm]⟩, Nat.zero_le _,
    fun _ ha => absurd ha (Nat.not_lt_zero _)⟩

section Commands

variable {s s' : State} (h : SameRecord s s')
include h

theorem SameRecord.readable : checkRead s 0 s.len = none ∧ checkRead s' 0 s'.len = none := by
  obtain ⟨⟨m, p, r, rfl⟩, hlen, hrec⟩ := h
  exact ⟨checkRead_record hlen fun a ha => (hrec a ha).imp fun _ => And.left,
    checkRead_record hlen fun a ha => (hrec a ha).imp fun _ => And.right⟩

theorem SameRecord.cfg (w : Byte) : BothAnswer (exec (.cfg w) s) (exec (.cfg w) s') := by
  obtain ⟨⟨m, p, r, rfl⟩, hlen, hrec⟩ := h
  obtain he | ⟨e, he⟩ := s.err.eq_none_or_eq_some
  · obtain hw | ⟨bw, hw⟩ := (widthOperand w).eq_none_or_eq_some
    · exact ⟨_, _, execCfg_of_no_width he hw, execCfg_of_no_width he hw, ⟨m, p, _, rfl⟩, hlen, hrec⟩
    · exact ⟨_, _, execCfg_of_width he hw, execCfg_of_width he hw, ⟨m, p, _, rfl⟩, hlen, hrec⟩
  · exact ⟨_, _, gated_of_some _ he, gated_of_some _ he, ⟨m, p, _, rfl⟩, hlen, hrec⟩

theorem SameRecord.push (b : Byte) : BothAnswer (exec (.push b) s) (exec (.push b) s') := by
  obtain ⟨⟨m, p, r, rfl⟩, hlen, hrec⟩ := h
  obtain he | ⟨e, he⟩ := s.err.eq_none_or_eq_some
  · obtain hfull | hroom := hlen.eq_or_lt
    · exact ⟨_, _, execPush_of_full b he hfull, execPush_of_full b he hfull, ⟨m, p, _, rfl⟩, hlen, hrec⟩
    · exact ⟨_, _, execPush_of_room b he hroom, execPush_of_room b he hroom,
        ⟨m.write s.len b, p, _, rfl⟩, hroom, shared_bytes_write hrec b⟩
  · exact ⟨_, _, gated_of_some _ he, gated_of_some _ he, ⟨m, p, _, rfl⟩, hlen, hrec⟩

theorem SameRecord.run : BothAnswer (exec .run s) (exec .run s') := by
  obtain ⟨hread, hread'⟩ := h.readable
  obtain ⟨⟨m, p, r, rfl⟩, hlen, hrec⟩ := h
  obtain he | ⟨e, he⟩ := s.err.eq_none_or_eq_some
  · obtain hw | ⟨w, hw⟩ := s.w.eq_none_or_eq_some
    · exact ⟨_, _, execRun_of_no_width he hw, execRun_of_no_width he hw, ⟨m, p, _, rfl⟩, hlen, hrec⟩
    · by_cases hl : 8 * s.len % w.bits = 0
      · have hsum : sumBlocks { s with buf := m, port := p, resp := r } w (numBlocks s w) =
            sumBlocks s w (numBlocks s w) :=
          sumBlocks_congr w _ fun a ha => by
            obtain ⟨b, hb, hb'⟩ := hrec a (numBlocks_mul_bytes hl ▸ ha)
            exact hb'.trans hb.symm
        have hadded : blocksAdded { s with buf := m, port := p, resp := r } w (numBlocks s w) =
            { blocksAdded s w (numBlocks s w) with buf := m, port := p } := by
          rw [blocksAdded, hsum]
          rfl
        exact ⟨_, _, execRun_of_readable he hw hl hread, execRun_of_readable he hw hl hread',
          ⟨m, p, _, hadded⟩, hlen, hrec⟩
      · exact ⟨_, _, execRun_of_partial_block he hw hl, execRun_of_partial_block he hw hl,
          ⟨m, p, _, rfl⟩, hlen, hrec⟩
  · exact ⟨_, _, gated_of_some _ he, gated_of_some _ he, ⟨m, p, _, rfl⟩, hlen, hrec⟩

theorem SameRecord.pushes_run (bytes : List Byte) :
    BothAnswer (execAll (bytes.map .push ++ [.run]) s) (execAll (bytes.map .push ++ [.run]) s') := by
  induction bytes generalizing s s' with
  | nil => exact h.run.execAll_cons fun t t' ht => ⟨t, t', rfl, rfl, ht⟩
  | cons b bytes ih => exact (h.push b).execAll_cons fun _ _ ht => ih ht

end Commands

/-- Settles O44: RST makes the two units alike, and each command after it keeps them so. -/
theorem checksumDeterministic : Obligations.ChecksumDeterministic := by
  intro s s' w bytes hm
  have hboth := (bothAnswer_rst hm).execAll_cons fun _ _ h =>
    (h.cfg w).execAll_cons fun _ _ h => h.pushes_run bytes
  obtain ⟨t, t', ht, ht', ⟨m, p, r, rfl⟩, -, -⟩ := hboth
  exact ⟨t, _, ht, ht', rfl, rfl, rfl, rfl, rfl⟩

end Sys2Proof
end

section
/-! GET (R76): what each selector reads at reset and in the rule's example, and the words above the selectors. -/

namespace Sys2Proof

open Sys2Proof.Machine

theorem encode_get (q : Byte) : encode (.get q) = 0x0600#16 + q.setWidth 16 := append_eq_add 0x06 q

/-- The words 0x0604 to 0x06FF are of R43's third kind. -/
theorem decode_get_word_of_no_selector {q : Byte} (hq : 4 ≤ q.toNat) :
    ∃ e, decode (0x0600#16 + q.setWidth 16) = .error e := by
  rw [← encode_get, decode_eq_error_iff, opField_encode, immField_encode]
  exact .inr (.inr (.inr ⟨rfl, hq⟩))

theorem readout_reset (sel : Selector) : readout sel State.reset = 0 := by
  cases sel with
  | sum | len | blk => rfl
  | status => exact statusWord_eq_zero rfl rfl rfl

/-- STATUS once the three bytes of a record have been added at W = 8 with no carry: W in 13:8, DONE in 4. -/
theorem statusWord_of_three_blocks_added {s : State} (hw : s.w = some .w8) (hl : s.len = 3) (hb : s.blk = 3)
    (hc : s.cy = false) (he : s.err = none) : statusWord s = 0x00000810 := by
  have hd : done s = true := (done_iff hw).2 (by rw [hl, hb]; rfl)
  rw [statusWord, hd, hw, hc, he]
  rfl

/-- GET with a legal selector, the value it reads being known. -/
theorem exec_get_of_readout {s : State} {q : Byte} {sel : Selector} {r : RespWord}
    (hq : selectorOperand q = some sel) (hr : readout sel s = r) :
    exec (.get q) s = .next { s with resp := some r } :=
  hr ▸ execGet_of_selector hq

/-- Settles O35: a legal GET by the value its selector reads, whatever ERR is; a word above the selectors does
what `execIllegal` says, behind the gate. -/
theorem getResult : Obligations.GetResult := by
  refine ⟨⟨rfl, rfl, rfl, rfl⟩, fun _ => exec_get_of_readout (sel := .sum) rfl rfl,
    fun _ => exec_get_of_readout (sel := .status) rfl rfl,
    fun _ => exec_get_of_readout (sel := .len) rfl rfl,
    fun _ => exec_get_of_readout (sel := .blk) rfl rfl, fun q hq => ?_, fun q hq => ?_, ?_⟩
  · obtain ⟨x, hx⟩ := decode_get_word_of_no_selector hq
    refine ⟨⟨x, hx⟩, fun s rest hp => ?_⟩
    rw [step_of_decode_error hp hx]
    exact ⟨fun he => execIllegal_of_none he, fun _ he => execIllegal_of_some he⟩
  · obtain ⟨sel, hsel⟩ := Option.isSome_iff_exists.1 ((selectorOperand_isSome q).trans (decide_eq_true hq))
    exact exec_get_of_readout hsel (readout_reset sel)
  · intro s hw hl hb ha hc he
    exact ⟨exec_get_of_readout (sel := .sum) rfl ha,
      exec_get_of_readout (sel := .status) rfl (statusWord_of_three_blocks_added hw hl hb hc he),
      exec_get_of_readout (sel := .len) rfl (congrArg (BitVec.ofNat 32) hl),
      exec_get_of_readout (sel := .blk) rfl (congrArg (BitVec.ofNat 32) hb)⟩

end Sys2Proof
end

section
/-! The error a command's own checks find (R81 to R83, R89), said once as `commandError`: with ERR = 0 the latch
after a command holds exactly that, and a command whose checks find an error has no other effect (R86, R88). -/

namespace Sys2Proof

open Sys2Proof.Machine

/-! ### The checks -/

/-- The checks of STEP and RUN in the order of R89: the width before the length. -/
def summingError (s : State) : Option ErrorKind :=
  match s.w with
  | none => some .configurationError
  | some w => if 8 * s.len % w.bits ≠ 0 then some .invalidInputLength else none

/-- The error a command's own checks find: what it raises when no error is latched. -/
def commandError (s : State) : Instr → Option ErrorKind
  | .rst => none
  | .cfg w => if w = 8 ∨ w = 16 ∨ w = 32 then none else some .configurationError
  | .push _ => if s.len = s.maxBytes then some .bufferOverflow else none
  | .step | .run => summingError s
  | .get q => if (selectorOperand q).isSome then none else some .illegalCommand

section Causes

variable {s : State} {i : Instr}

theorem summingError_of_no_width (hw : s.w = none) : summingError s = some .configurationError := by
  simp [summingError, hw]

theorem summingError_of_width {w : BlockWidth} (hw : s.w = some w) :
    summingError s = if 8 * s.len % w.bits ≠ 0 then some .invalidInputLength else none := by
  simp [summingError, hw]

theorem summingError_eq_configurationError :
    summingError s = some .configurationError ↔ s.w = none := by
  obtain hw | ⟨w, hw⟩ := s.w.eq_none_or_eq_some
  · simp [summingError_of_no_width hw, hw]
  · simp [summingError_of_width hw, hw]

theorem summingError_eq_invalidInputLength :
    summingError s = some .invalidInputLength ↔ ∃ w, s.w = some w ∧ 8 * s.len % w.bits ≠ 0 := by
  obtain hw | ⟨w, hw⟩ := s.w.eq_none_or_eq_some
  · simp [summingError_of_no_width hw, hw]
  · simp [summingError_of_width hw, hw]

/-- STEP and RUN raise no other error. -/
theorem summingError_cases : summingError s = none ∨ summingError s = some .configurationError ∨
    summingError s = some .invalidInputLength := by
  obtain hw | ⟨w, hw⟩ := s.w.eq_none_or_eq_some
  · exact .inr (.inl (summingError_of_no_width hw))
  · rw [summingError_of_width hw]
    split <;> simp

theorem commandError_eq_configurationError : commandError s i = some .configurationError ↔
    (∃ w, i = .cfg w ∧ w ≠ 8 ∧ w ≠ 16 ∧ w ≠ 32) ∨ ((i = .step ∨ i = .run) ∧ s.w = none) := by
  cases i with
  | step | run => simp [commandError, summingError_eq_configurationError]
  | _ => simp [commandError]

theorem commandError_eq_invalidInputLength : commandError s i = some .invalidInputLength ↔
    (i = .step ∨ i = .run) ∧ ∃ w, s.w = some w ∧ 8 * s.len % w.bits ≠ 0 := by
  cases i with
  | step | run => simp [commandError, summingError_eq_invalidInputLength]
  | _ => simp [commandError]

theorem commandError_eq_bufferOverflow : commandError s i = some .bufferOverflow ↔
    (∃ b, i = .push b) ∧ s.len = s.maxBytes := by
  cases i with
  | step | run => obtain h | h | h := summingError_cases (s := s) <;> simp [commandError, h]
  | _ => simp [commandError]

/-- IllegalCommand is no decoded command's own error: a GET that a word decodes to has a legal selector. -/
theorem commandError_ne_illegalCommand {cw : CmdWord} (hd : decode cw = .ok i) :
    commandError s i ≠ some .illegalCommand := by
  cases i with
  | step | run => obtain h | h | h := summingError_cases (s := s) <;> simp [commandError, h]
  | get q =>
    obtain ⟨sel, hsel⟩ := selectorOperand_of_decode hd
    simp [commandError, hsel]
  | _ => simp [commandError]

end Causes

/-! ### The outcomes with ERR = 0 -/

theorem widthOperand_isSome (w : Byte) : (widthOperand w).isSome ↔ w = 8 ∨ w = 16 ∨ w = 32 := by
  rw [widthOperand]
  split_ifs <;> simp_all

/-- With ERR = 0, `o` is what R86 lets a command do whose checks find `found`: latch the error and answer its
code, or, where they find none, latch none. -/
def RaisesExactly (s : State) (o : Out) : Option ErrorKind → Prop
  | some e => o = .next { s with err := some e, resp := some (errWord (some e)) }
  | none => ∀ t, o = .next t → t.err = none

section OpenGate

variable {s : State}

theorem RaisesExactly.of_next {t : State} (he : t.err = none) : RaisesExactly s (.next t) none := by
  rintro _ ⟨⟩
  exact he

theorem RaisesExactly.of_fault (f : Fault) : RaisesExactly s (.fault f) none := by
  rintro _ ⟨⟩

variable (he : s.err = none)
include he

theorem execCfg_raisesExactly (w : Byte) : RaisesExactly s (execCfg w s) (commandError s (.cfg w)) := by
  have hcause := widthOperand_isSome w
  cases hw : widthOperand w with
  | none =>
    rw [commandError, if_neg (by simpa [hw] using hcause)]
    exact execCfg_of_no_width he hw
  | some bw =>
    rw [commandError, if_pos (by simpa [hw] using hcause), execCfg_of_width he hw]
    exact .of_next he

theorem execPush_raisesExactly (b : Byte) : RaisesExactly s (execPush b s) (commandError s (.push b)) := by
  obtain ⟨e, he', -⟩ | ⟨-, hl, hx⟩ | ⟨-, hl, hx⟩ | ⟨-, hl, hx⟩ := execPush_cases b s
  · cases he.symm.trans he'
  · rw [commandError, if_pos hl]
    exact hx
  · rw [commandError, if_neg hl.ne', hx]
    exact .of_fault _
  · rw [commandError, if_neg hl.ne, hx]
    exact .of_next he

theorem execStep_raisesExactly : RaisesExactly s (execStep s) (summingError s) := by
  obtain ⟨e, he', -⟩ | ⟨-, hw, hx⟩ | ⟨w, -, hw, hl, hx⟩ | ⟨w, -, hw, hl, -, hx⟩ |
    ⟨w, f, -, hw, hl, -, -, hx⟩ | ⟨w, -, hw, hl, -, -, hx⟩ := execStep_cases s
  · cases he.symm.trans he'
  · rw [summingError_of_no_width hw]
    exact hx
  · rw [summingError_of_width hw, if_pos hl]
    exact hx
  · rw [summingError_of_width hw, if_neg (not_not.2 hl), hx]
    exact .of_next he
  · rw [summingError_of_width hw, if_neg (not_not.2 hl), hx]
    exact .of_fault f
  · rw [summingError_of_width hw, if_neg (not_not.2 hl), hx]
    exact .of_next he

theorem execRun_raisesExactly : RaisesExactly s (execRun s) (summingError s) := by
  obtain ⟨e, he', -⟩ | ⟨-, hw, hx⟩ | ⟨w, -, hw, hl, hx⟩ | ⟨w, f, -, hw, hl, -, hx⟩ |
    ⟨w, -, hw, hl, -, hx⟩ := execRun_cases s
  · cases he.symm.trans he'
  · rw [summingError_of_no_width hw]
    exact hx
  · rw [summingError_of_width hw, if_pos hl]
    exact hx
  · rw [summingError_of_width hw, if_neg (not_not.2 hl), hx]
    exact .of_fault f
  · rw [summingError_of_width hw, if_neg (not_not.2 hl), hx]
    exact .of_next he

theorem execGet_raisesExactly (q : Byte) : RaisesExactly s (execGet q s) (commandError s (.get q)) := by
  obtain ⟨sel, hsel, hx⟩ | ⟨e, -, he', -⟩ | ⟨hsel, -, hx⟩ := execGet_cases q s
  · rw [commandError, if_pos (by simp [hsel]), hx]
    exact .of_next he
  · cases he.symm.trans he'
  · rw [commandError, if_neg (by simp [hsel])]
    exact hx

theorem exec_raisesExactly (i : Instr) : RaisesExactly s (exec i s) (commandError s i) := by
  cases i with
  | rst => exact .of_next rfl
  | cfg w => exact execCfg_raisesExactly he w
  | push b => exact execPush_raisesExactly he b
  | step => exact execStep_raisesExactly he
  | run => exact execRun_raisesExactly he
  | get q => exact execGet_raisesExactly he q

variable {i : Instr}

/-- A command whose checks find an error latches it and answers its code, and does nothing else. -/
theorem exec_of_commandError {e : ErrorKind} (h : commandError s i = some e) :
    exec i s = .next { s with err := some e, resp := some (errWord (some e)) } := by
  have hx := exec_raisesExactly he i
  rwa [h] at hx

theorem err_of_exec {t : State} (ht : exec i s = .next t) : t.err = commandError s i := by
  cases hc : commandError s i with
  | none =>
    have hx := exec_raisesExactly he i
    rw [hc] at hx
    exact hx t ht
  | some e =>
    cases (exec_of_commandError he hc).symm.trans ht
    rfl

/-- What a command that left an error has done. -/
theorem eq_of_exec_raised {t : State} {e : ErrorKind} (ht : exec i s = .next t) (hte : t.err = some e) :
    t = { s with err := some e, resp := some (errWord (some e)) } :=
  Host.Outcome.next.inj (ht.symm.trans (exec_of_commandError he ((err_of_exec he ht).symm.trans hte)))

end OpenGate

/-! ### The obligations -/

/-- Settles O48: the cause of each error is read off `commandError`, and an illegal word raises its own. -/
theorem errorCodesAndCauses : Obligations.ErrorCodesAndCauses := by
  refine ⟨⟨rfl, rfl, rfl, rfl, rfl⟩, fun e => ?_, fun s t i he ht => ?_, fun s cw rest hp he => ⟨?_, ?_⟩⟩
  · have hmem := errField_mem e
    refine ⟨?_, ?_, ?_⟩ <;> rintro h <;> simp [h] at hmem
  · rw [err_of_exec he ht]
    exact ⟨commandError_eq_configurationError, commandError_eq_invalidInputLength,
      commandError_eq_bufferOverflow⟩
  · rintro ⟨t, ht, hte⟩
    cases hd : decode cw with
    | error x => exact ⟨x, rfl⟩
    | ok i =>
      rw [step_of_decode_ok hp hd] at ht
      have hcause := (err_of_exec (s := { s with port := rest }) he ht).symm.trans hte
      exact absurd hcause (commandError_ne_illegalCommand hd)
  · rintro ⟨x, hx⟩
    exact ⟨_, (step_of_decode_error hp hx).trans (execIllegal_of_none he), rfl⟩

/-- Settles O49: the cause is read off `commandError`, every record is whole at W = 8, and the condition in bits
is 8 times the one in bytes. -/
theorem lengthErrorExactly : Obligations.LengthErrorExactly := by
  refine ⟨fun s w he hw hl => ⟨⟨_, execStep_of_partial_block he hw hl, rfl⟩,
    ⟨_, execRun_of_partial_block he hw hl, rfl⟩⟩, fun s t i he ht hte => ?_, fun s w => ?_⟩
  · obtain ⟨hi, w, hw, hl⟩ := commandError_eq_invalidInputLength.1 ((err_of_exec he ht).symm.trans hte)
    refine ⟨hi, w, hw, hl, ?_⟩
    rintro rfl
    exact hl (Nat.mul_mod_right 8 s.len)
  · rw [w.bits_eq, Nat.mul_mod_mul_left]
    omega

/-- Settles O50: `raiseError` by its two laws, and a raising command by what it has done. -/
theorem raiseKeepsFirstError : Obligations.RaiseKeepsFirstError := by
  refine ⟨raiseError_of_none, fun s e _ => raiseError_of_some s e, fun s t i _ he ht hne => ?_⟩
  obtain ⟨e, hte⟩ := Option.ne_none_iff_exists'.1 hne
  rw [hte]
  exact eq_of_exec_raised he ht hte

end Sys2Proof
end

section
/-! The error state (R87 to R90): what the gate leaves of a command, the one word that leaves the state, and the
order of the checks. -/

namespace Sys2Proof

open Sys2Proof.Machine

section Latched

variable {s : State} {i : Instr} {e : ErrorKind} (he : s.err = some e) (hi : i ≠ .rst)
include he hi

theorem exec_of_gated (hg : ∀ q, i ≠ .get q) :
    exec i s = .next { s with resp := some (errWord (some e)) } := by
  cases i with
  | rst => exact absurd rfl hi
  | cfg | push | step | run => exact gated_of_some _ he
  | get q => exact absurd rfl (hg q)

/-- GET is not gated, but it writes no register either. -/
theorem exec_of_latched : ∃ r, exec i s = .next { s with resp := r } := by
  obtain ⟨q, rfl⟩ | hg := em (∃ q, i = .get q)
  · obtain ⟨sel, -, hx⟩ | ⟨e', -, -, hx⟩ | ⟨-, he', -⟩ := execGet_cases q s
    · exact ⟨_, hx⟩
    · exact ⟨_, hx⟩
    · cases he.symm.trans he'
  · exact ⟨_, exec_of_gated he hi (not_exists.1 hg)⟩

end Latched

/-- RST has the one word 0x0100 (R41). -/
theorem decode_eq_rst_iff {cw : CmdWord} : decode cw = .ok .rst ↔ cw = 0x0100 := by
  constructor
  · intro h
    exact (encode_of_decode h).1
  · rintro rfl
    exact decode_encode (i := .rst) rfl

/-- Under the invariants no command meets a fault (R49): there is room where PUSH writes, and the record holds
what STEP and RUN read. -/
theorem StateInv.exec_answers {s : State} (h : StateInv s) (i : Instr) : ∃ t, exec i s = .next t := by
  cases i with
  | rst => exact ⟨_, rfl⟩
  | cfg w =>
    obtain ⟨_, -, hx⟩ | ⟨-, -, hx⟩ | ⟨_, -, -, hx⟩ := execCfg_cases w s <;> exact ⟨_, hx⟩
  | push b =>
    obtain ⟨_, -, hx⟩ | ⟨-, -, hx⟩ | ⟨-, hl, -⟩ | ⟨-, -, hx⟩ := execPush_cases b s
    · exact ⟨_, hx⟩
    · exact ⟨_, hx⟩
    · exact absurd hl h.lenBound.not_gt
    · exact ⟨_, hx⟩
  | step =>
    obtain ⟨_, -, hx⟩ | ⟨-, -, hx⟩ | ⟨_, -, -, -, hx⟩ | ⟨_, -, -, -, -, hx⟩ |
      ⟨w, f, -, hw, hl, hb, hc, -⟩ | ⟨_, -, -, -, -, -, hx⟩ := execStep_cases s
    · exact ⟨_, hx⟩
    · exact ⟨_, hx⟩
    · exact ⟨_, hx⟩
    · exact ⟨_, hx⟩
    · obtain ⟨hroom, -⟩ := h.room hw hl hb
      cases (h.checkRead_eq_none hroom).symm.trans hc
    · exact ⟨_, hx⟩
  | run =>
    obtain ⟨_, -, hx⟩ | ⟨-, -, hx⟩ | ⟨_, -, -, -, hx⟩ | ⟨w, f, -, -, -, hc, -⟩ |
      ⟨_, -, -, -, -, hx⟩ := execRun_cases s
    · exact ⟨_, hx⟩
    · exact ⟨_, hx⟩
    · exact ⟨_, hx⟩
    · cases (h.checkRead_eq_none (Nat.zero_add _).le).symm.trans hc
    · exact ⟨_, hx⟩
  | get q =>
    obtain ⟨_, -, hx⟩ | ⟨_, -, -, hx⟩ | ⟨-, -, hx⟩ := execGet_cases q s <;> exact ⟨_, hx⟩

/-! ### The obligations -/

/-- Settles O51: an illegal word and a command that is neither RST nor GET meet the same closed gate. -/
theorem gateIgnoresCommands : Obligations.GateIgnoresCommands := by
  intro s cw rest e hp he hrst hget
  cases hd : decode cw with
  | error x => exact (step_of_decode_error hp hd).trans (execIllegal_of_some he)
  | ok i =>
    have hi : i ≠ .rst := by
      rintro rfl
      exact hrst (decode_eq_rst_iff.1 hd)
    have hg : ∀ q, i ≠ .get q := by
      rintro q rfl
      exact hget q hd
    exact (step_of_decode_ok hp hd).trans (exec_of_gated (s := { s with port := rest }) he hi hg)

/-- Settles O52: a command that left an error wrote ERR and the response, and the latch shuts out the next. -/
theorem errorsArePrecise : Obligations.ErrorsArePrecise := by
  intro s t i e he ht hte
  cases eq_of_exec_raised he ht hte
  refine ⟨⟨rfl, rfl, rfl, rfl, rfl, rfl⟩, fun j hj => ?_⟩
  obtain ⟨r, hr⟩ := exec_of_latched hte hj
  exact ⟨_, hr, rfl⟩

/-- Settles O53: for an illegal word by the gate; for a command a latched error stays or RST clears it, and with
ERR = 0 the latch holds what `commandError` finds. -/
theorem checkOrder : Obligations.CheckOrder := by
  intro s cw rest h hp
  cases hd : decode cw with
  | error x =>
    rw [step_of_decode_error hp hd]
    obtain he | ⟨e, he⟩ := s.err.eq_none_or_eq_some
    · exact ⟨_, execIllegal_of_none (s := { s with port := rest }) he, by rw [he]⟩
    · exact ⟨_, execIllegal_of_some (s := { s with port := rest }) he, by rw [he]⟩
  | ok i =>
    rw [step_of_decode_ok hp hd]
    obtain ⟨t, ht⟩ := (h.with_err_port_resp s.err rest s.resp).exec_answers i
    refine ⟨t, ht, ?_⟩
    obtain he | ⟨e, he⟩ := s.err.eq_none_or_eq_some <;> rw [he]
    · have hte := err_of_exec (s := { s with port := rest }) he ht
      cases i with
      | get q =>
        obtain ⟨sel, hsel⟩ := selectorOperand_of_decode hd
        rwa [commandError, if_pos (by simp [hsel])] at hte
      | _ => exact hte
    · cases i with
      | rst =>
        cases ht
        rfl
      | _ => exact err_of_exec_latched (s := { s with port := rest }) he (by simp) ht

/-- Settles O54: a word that leaves the error state decodes to RST, which has the one word 0x0100. -/
theorem onlyResetLeavesErrorState : Obligations.OnlyResetLeavesErrorState := by
  refine ⟨fun s t e he ht => ?_, fun s cw rest hp hcw => ?_, fun _ => rfl⟩
  · obtain ⟨-, hx⟩ | ⟨cw, rest, i, hp, hd, hx⟩ | ⟨cw, rest, x, -, -, hx⟩ := step_cases s
    · cases hx.symm.trans ht
      exact .inl he
    · obtain rfl | hi := eq_or_ne i .rst
      · obtain rfl := decode_eq_rst_iff.1 hd
        cases hx.symm.trans ht
        exact .inr ⟨⟨rest, hp⟩, rfl, rfl, rfl, rfl, rfl, rfl⟩
      · exact .inl (err_of_exec_latched (s := { s with port := rest }) he hi (hx.symm.trans ht))
    · cases (hx.trans (execIllegal_of_some he)).symm.trans ht
      exact .inl he
  · exact ⟨_, step_of_decode_ok hp (decode_eq_rst_iff.2 hcw), rfl⟩

end Sys2Proof
end

section
/-! Everything a command that answers can have done, said once for all six (R24), and the frames that follow. -/

namespace Sys2Proof

open Sys2Proof.Machine

/-- `s` once the byte has been pushed, and 0 answered. -/
def pushedByte (s : State) (b : Byte) : State :=
  { s with buf := s.buf.write s.len b, len := s.len + 1, resp := some 0 }

/-- `Effect s i t`: command `i` may make `t` of `s`. Any command may change no register (behind the gate, GET, a
STEP with no block left) or raise an error (R86); the other constructors are the commands' own effects. -/
inductive Effect (s : State) : Instr → State → Prop where
  | answered (i : Instr) (r : Option RespWord) : Effect s i { s with resp := r }
  | raised (i : Instr) (he : s.err = none) (e : ErrorKind) (r : Option RespWord) :
      Effect s i { s with err := some e, resp := r }
  | cleared : Effect s .rst
      { s with len := 0, w := none, acc := 0, cy := false, blk := 0, err := none, resp := some 0 }
  | configured {o : Byte} {bw : BlockWidth} (ho : widthOperand o = some bw) : Effect s (.cfg o)
      { s with w := some bw, acc := 0, cy := false, blk := 0, resp := some 0 }
  | pushed (b : Byte) : Effect s (.push b) (pushedByte s b)
  | stepped {w : BlockWidth} (hw : s.w = some w) : Effect s .step { s with
      acc := BitVec.ofNat 32 (addEAC w.bits (s.acc.toNat % 2 ^ w.bits) (blockAt s w s.blk) s.cy).1
      cy := (addEAC w.bits (s.acc.toNat % 2 ^ w.bits) (blockAt s w s.blk) s.cy).2
      blk := s.blk + 1
      resp := some 0 }
  | ran {w : BlockWidth} (hw : s.w = some w) : Effect s .run (blocksAdded s w (numBlocks s w))

section Effects

variable {s t : State}

theorem effect_of_execCfg {o : Byte} (ht : execCfg o s = .next t) : Effect s (.cfg o) t := by
  obtain ⟨e, -, hx⟩ | ⟨he, -, hx⟩ | ⟨bw, -, ho, hx⟩ := execCfg_cases o s <;> cases hx.symm.trans ht
  · exact .answered _ _
  · exact .raised _ he _ _
  · exact .configured ho

theorem effect_of_execPush {b : Byte} (ht : execPush b s = .next t) : Effect s (.push b) t := by
  obtain ⟨e, -, hx⟩ | ⟨he, -, hx⟩ | ⟨-, -, hx⟩ | ⟨-, -, hx⟩ := execPush_cases b s <;>
    cases hx.symm.trans ht
  · exact .answered _ _
  · exact .raised _ he _ _
  · exact .pushed b

theorem effect_of_execStep (ht : execStep s = .next t) : Effect s .step t := by
  obtain ⟨e, -, hx⟩ | ⟨he, -, hx⟩ | ⟨w, he, -, -, hx⟩ | ⟨w, -, -, -, -, hx⟩ | ⟨w, f, -, -, -, -, -, hx⟩ |
    ⟨w, -, hw, -, -, -, hx⟩ := execStep_cases s <;> cases hx.symm.trans ht
  · exact .answered _ _
  · exact .raised _ he _ _
  · exact .raised _ he _ _
  · exact .answered _ _
  · exact .stepped hw

theorem effect_of_execRun (ht : execRun s = .next t) : Effect s .run t := by
  obtain ⟨e, -, hx⟩ | ⟨he, -, hx⟩ | ⟨w, he, -, -, hx⟩ | ⟨w, f, -, -, -, -, hx⟩ | ⟨w, -, hw, -, -, hx⟩ :=
    execRun_cases s <;> cases hx.symm.trans ht
  · exact .answered _ _
  · exact .raised _ he _ _
  · exact .raised _ he _ _
  · exact .ran hw

theorem effect_of_execGet {q : Byte} (ht : execGet q s = .next t) : Effect s (.get q) t := by
  obtain ⟨sel, -, hx⟩ | ⟨e, -, -, hx⟩ | ⟨-, he, hx⟩ := execGet_cases q s <;> cases hx.symm.trans ht
  · exact .answered _ _
  · exact .answered _ _
  · exact .raised _ he _ _

theorem effect_of_exec {i : Instr} (ht : exec i s = .next t) : Effect s i t := by
  cases i with
  | rst =>
    cases (execRst_eq s).symm.trans ht
    exact .cleared
  | cfg o => exact effect_of_execCfg ht
  | push b => exact effect_of_execPush ht
  | step => exact effect_of_execStep ht
  | run => exact effect_of_execRun ht
  | get q => exact effect_of_execGet ht

end Effects

/-! ### The frames -/

/-- Settles O10: PUSH alone has an effect that writes BUF. -/
theorem onlyPushStores : Obligations.OnlyPushStores := by
  intro s t i hi ht a
  cases effect_of_exec ht with
  | pushed b => exact absurd rfl (hi b)
  | answered | raised | cleared | configured | stepped | ran => rfl

/-- Settles O11: a PUSH either wrote ERR alone, and LEN has not grown, or stored at `pushAddr s`. -/
theorem pushStoresOneByte : Obligations.PushStoresOneByte := by
  intro s t b ht
  cases effect_of_exec ht with
  | answered | raised => exact ⟨fun _ _ => rfl, fun hl => absurd hl (Nat.succ_ne_self _).symm, fun _ => rfl⟩
  | pushed =>
    exact ⟨fun a ha => Memory.read_write_other _ b ha, fun _ => Memory.read_write_same ..,
      fun hl => absurd rfl hl⟩

/-- Settles O12: no effect writes MAXBYTES or the port, and each leaves what its own column of R24 says. -/
theorem registerFrames : Obligations.RegisterFrames := by
  intro s t i ht
  cases effect_of_exec ht with
  | answered | raised => cases i <;> simp
  | cleared => exact ⟨rfl, rfl, trivial⟩
  | configured => exact ⟨rfl, rfl, rfl⟩
  | pushed => exact ⟨rfl, rfl, rfl, rfl, rfl, rfl⟩
  | stepped | ran => exact ⟨rfl, rfl, rfl, rfl⟩

/-- Settles O13: an effect that changes ERR, but RST's, changes it from 0 and nothing else. -/
theorem errWrittenAlone : Obligations.ErrWrittenAlone := by
  intro s t i hi ht
  cases effect_of_exec ht with
  | raised _ he => exact .inr ⟨he, rfl⟩
  | cleared => exact absurd rfl hi
  | answered | configured | pushed | stepped | ran => exact .inl rfl

/-- Settles O14: RST and CFG alone have an effect that writes W, and both clear ACC, CY and BLK. -/
theorem widthFixedPerComputation : Obligations.WidthFixedPerComputation := by
  intro s t i ht hne
  cases effect_of_exec ht with
  | cleared => exact ⟨.inl rfl, rfl, rfl, rfl⟩
  | configured ho => exact ⟨.inr ⟨_, _, rfl, ho, rfl⟩, rfl, rfl, rfl⟩
  | answered | raised | pushed | stepped | ran => exact absurd rfl hne

/-- Settles O15: LEN and BUF are written by PUSH alone, at the end of the record. -/
theorem recordOnlyGrows : Obligations.RecordOnlyGrows := by
  intro s t i hi ht
  cases effect_of_exec ht with
  | cleared => exact absurd rfl hi
  | pushed b => exact ⟨Nat.le_succ _, le_rfl, fun a ha => Memory.read_write_other _ b ha.ne⟩
  | answered | raised | configured | stepped | ran => exact ⟨le_rfl, Nat.le_succ _, fun _ _ => rfl⟩

/-! ### The partial sum -/

/-- One more block added to the partial sum of the first BLK blocks. -/
theorem PartialSum.addEAC_block {s : State} {w : BlockWidth} (h : PartialSum s) (hw : s.w = some w) :
    addEAC w.bits (s.acc.toNat % 2 ^ w.bits) (blockAt s w s.blk) s.cy = sumBlocks s w (s.blk + 1) := by
  obtain ⟨hacc, hcy⟩ := Prod.mk.inj (h w hw)
  rw [sumBlocks_succ, ← hcy, hacc, Nat.mod_eq_of_lt (sumBlocks_fst_lt ..)]

/-- ACC and CY hold the sum once its n blocks have been added. -/
theorem partialSum_blocksAdded {s : State} {w : BlockWidth} (hw : s.w = some w) (n : Nat) :
    PartialSum (blocksAdded s w n) := by
  intro w' hw'
  obtain rfl : w = w' := Option.some.inj (hw.symm.trans hw')
  have hsum : sumBlocks (blocksAdded s w n) w n = sumBlocks s w n :=
    sumBlocks_congr w n fun _ _ => rfl
  rw [blocksAdded_acc_toNat]
  exact hsum.symm

/-- A PUSH stores above the blocks added so far (R22: BLK * W is at most 8 * LEN). -/
theorem StateInv.blocks_below_len {s : State} {w : BlockWidth} (h : StateInv s) (hw : s.w = some w) :
    s.blk * w.bytes ≤ s.len := by
  have hk := h.blkBound w hw
  rw [w.bits_eq, Nat.mul_left_comm] at hk
  exact Nat.le_of_mul_le_mul_left hk (by decide)

theorem PartialSum.exec_next {s t : State} {i : Instr} (hp : PartialSum s) (h : StateInv s)
    (ht : exec i s = .next t) : PartialSum t := by
  cases effect_of_exec ht with
  | answered | raised => exact hp.of_eq rfl rfl rfl rfl fun _ _ _ _ => rfl
  | cleared => exact nofun
  | configured =>
    rintro w ⟨⟩
    rfl
  | pushed b =>
    exact hp.of_eq rfl rfl rfl rfl fun w hw a ha =>
      Memory.read_write_other _ b (ha.trans_le (h.blocks_below_len hw)).ne
  | stepped hw =>
    rw [hp.addEAC_block hw]
    exact partialSum_blocksAdded hw _
  | ran hw => exact partialSum_blocksAdded hw _

/-- Settles O4: taking the word leaves the sum alone, each command keeps it, and an illegal word writes ERR alone. -/
theorem accumulatorIsPartialSum : Obligations.AccumulatorIsPartialSum := by
  intro s t h hp ht
  obtain ⟨-, hx⟩ | ⟨cw, rest, i, -, -, hx⟩ | ⟨cw, rest, x, -, -, hx⟩ := step_cases s
  · cases hx.symm.trans ht
    exact hp
  · have hp' : PartialSum { s with port := rest } := hp.of_eq rfl rfl rfl rfl fun _ _ _ _ => rfl
    exact hp'.exec_next (h.with_err_port_resp _ rest _) (hx.symm.trans ht)
  · obtain he | ⟨e, he⟩ := s.err.eq_none_or_eq_some
    · cases (hx.trans (execIllegal_of_none he)).symm.trans ht
      exact hp.of_eq rfl rfl rfl rfl fun _ _ _ _ => rfl
    · cases (hx.trans (execIllegal_of_some he)).symm.trans ht
      exact hp.of_eq rfl rfl rfl rfl fun _ _ _ _ => rfl

end Sys2Proof
end

section
/-! Runs never stop (R49), the bounds of the counts (R72), and the reads of STEP (R28). -/

namespace Sys2Proof

open Sys2Proof.Machine

/-! ### Totality -/

section Answers

variable {s : State} (h : StateInv s)
include h

/-- Under the invariants every step answers: it waits, or an instruction or an illegal word does. -/
theorem StateInv.step_answers : ∃ t, step s = .next t := by
  obtain ⟨-, hx⟩ | ⟨cw, rest, i, -, -, hx⟩ | ⟨cw, rest, x, -, -, hx⟩ := step_cases s
  · exact ⟨_, hx⟩
  · obtain ⟨t, ht⟩ := (h.with_err_port_resp s.err rest s.resp).exec_answers i
    exact ⟨t, hx.trans ht⟩
  · obtain he | ⟨e, he⟩ := s.err.eq_none_or_eq_some
    · exact ⟨_, hx.trans (execIllegal_of_none he)⟩
    · exact ⟨_, hx.trans (execIllegal_of_some he)⟩

theorem StateInv.safeFor (k : Nat) : SafeFor k s := by
  induction k generalizing s with
  | zero => exact ⟨s, rfl⟩
  | succ k ih =>
    obtain ⟨t, ht⟩ := h.step_answers
    rw [SafeFor, run_succ_of_next k ht]
    exact ih (h.step_next ht)

end Answers

/-- Settles O3: every command and so every step answers under the invariants, and the next state has them again. -/
theorem executionNeverStops : Obligations.ExecutionNeverStops :=
  ⟨fun _ i h => h.exec_answers i, fun _ k h => h.safeFor k⟩

/-! ### Bounds -/

/-- There are no more blocks added than bytes loaded: a block has at least one byte, and without a width BLK is 0. -/
theorem StateInv.blk_le_len {s : State} (h : StateInv s) : s.blk ≤ s.len := by
  obtain hw | ⟨w, hw⟩ := s.w.eq_none_or_eq_some
  · obtain ⟨-, -, hk⟩ := h.unconfigured hw
    exact hk ▸ Nat.zero_le _
  · exact (Nat.le_mul_of_pos_right _ w.bytes_pos).trans (h.blocks_below_len hw)

theorem StateInv.blk_le_numBlocks {s : State} {w : BlockWidth} (h : StateInv s) (hw : s.w = some w) :
    s.blk ≤ numBlocks s w :=
  (Nat.le_div_iff_mul_le w.bits_pos).2 (h.blkBound w hw)

/-- Settles O9: all counts are bounded by LEN, which is at most MAXBYTES, below 2^28. -/
theorem countsNeverWrap : Obligations.CountsNeverWrap := by
  intro s h
  have hlen : s.len < 2 ^ 28 := h.lenBound.trans_lt h.maxLegal.2
  have hblk := h.blk_le_len
  refine ⟨by omega, by omega, by omega, fun w hw => ⟨?_, h.blk_le_numBlocks hw⟩,
    Nat.mod_eq_of_lt (by omega), Nat.mod_eq_of_lt (by omega)⟩
  have hsum := h.blkBound w hw
  omega

/-- Settles O22: a block that is left lies within the record, where every read is allowed. -/
theorem blockReadsStayInRecord : Obligations.BlockReadsStayInRecord := by
  intro s w h hw hl hb
  obtain ⟨hroom, -⟩ := h.room hw hl hb
  exact ⟨hroom, h.checkRead_eq_none hroom⟩

/-- Settles O1: the registers are zero and no width is configured, so there is no sum to compare ACC with. -/
theorem resetMeetsInvariants : Obligations.ResetMeetsInvariants :=
  ⟨StateInv.hardwareReset_of_legal (s := State.reset) (by decide), nofun,
    fun _ hm => ⟨StateInv.hardwareReset_of_legal hm, nofun⟩⟩

end Sys2Proof
end

section
/-! The encoding (R39 to R45): decoder against encoder, the opcode rows of R41, and a step on a decoded word. -/

namespace Sys2Proof

open Sys2Proof.Machine

/-- Settles O23: one direction each by `encode_of_decode` and `decode_encode`. -/
theorem decodeAndEncodeAgree : Obligations.DecodeAndEncodeAgree := by
  refine fun cw i => ⟨encode_of_decode, ?_⟩
  rintro ⟨rfl, hwf⟩
  exact decode_encode hwf

/-! ### The rows of the opcode map -/

/-- A row whose mask is 0xFFFF matches its pattern alone. -/
theorem eq_pattern_of_matches {r : OpRow} {cw : CmdWord} (hm : r.mask = 0xFFFF) (h : r.matches cw = true) :
    cw = r.pattern := by
  rwa [OpRow.matches, hm, and_mask_word, beq_iff_eq] at h

/-- Every mask covers the opcode, so a row matches words of its own opcode alone. -/
theorem opField_of_matches {r : OpRow} {cw : CmdWord} (hr : r ∈ opRows) (h : r.matches cw = true) :
    opField cw = opField r.pattern := by
  have hmask : ∀ r ∈ opRows, opField r.mask = BitVec.allOnes 8 := by decide
  calc opField cw
    _ = opField cw &&& opField r.mask := by rw [hmask r hr, BitVec.and_allOnes]
    _ = opField (cw &&& r.mask) := BitVec.extractLsb'_and.symm
    _ = opField r.pattern := congrArg opField (beq_iff_eq.1 h)

/-- The six rows have six opcodes. -/
theorem eq_of_opField_pattern : ∀ r ∈ opRows, ∀ r' ∈ opRows,
    opField r.pattern = opField r'.pattern → r = r' := by decide

/-- The word of a command matches the command's row. -/
theorem rowOf_matches_encode (i : Instr) : (rowOf i).matches (encode i) = true := by
  cases i with
  | rst => exact Laws.EncodesInRow.rst
  | cfg w => exact Laws.EncodesInRow.cfg w
  | push b => exact Laws.EncodesInRow.push b
  | step => exact Laws.EncodesInRow.step
  | run => exact Laws.EncodesInRow.run
  | get q => exact Laws.EncodesInRow.get q

/-- A word in a row is a command of that row, or is in GET's with a selector above 3 (R42, R43). -/
theorem decode_of_matches {r : OpRow} {cw : CmdWord} (hr : r ∈ opRows) (h : r.matches cw = true) :
    (∃ i, decode cw = .ok i ∧ rowOf i = r) ∨
    (r = rowOf (.get 0) ∧ 4 ≤ (immField cw).toNat ∧ ∃ e, decode cw = .error e) := by
  have hop := opField_of_matches hr h
  simp only [opRows, List.mem_cons, List.not_mem_nil, or_false] at hr
  obtain rfl | rfl | rfl | rfl | rfl | rfl := hr
  · cases eq_pattern_of_matches rfl h
    exact .inl ⟨.rst, rfl, rfl⟩
  · exact .inl ⟨_, decode_of_op_cfg hop, rfl⟩
  · exact .inl ⟨_, decode_of_op_push hop, rfl⟩
  · cases eq_pattern_of_matches rfl h
    exact .inl ⟨.step, rfl, rfl⟩
  · cases eq_pattern_of_matches rfl h
    exact .inl ⟨.run, rfl, rfl⟩
  · by_cases hle : (immField cw).toNat ≤ 3
    · exact .inl ⟨_, (decode_of_op_get hop).trans (if_pos hle), rfl⟩
    · exact .inr ⟨rfl, not_le.1 hle, _, (decode_of_op_get hop).trans (if_neg hle)⟩

/-- Settles O25: a row is found by the opcode, which no two rows share. -/
theorem opcodeRowsAgreeWithDecoder : Obligations.OpcodeRowsAgreeWithDecoder := by
  refine ⟨fun cw r r' hr hr' h h' => ?_, fun cw i hd => ?_, fun cw r => decode_of_matches⟩
  · exact eq_of_opField_pattern r hr r' hr' ((opField_of_matches hr h).symm.trans (opField_of_matches hr' h'))
  · obtain ⟨rfl, -⟩ := encode_of_decode hd
    exact rowOf_matches_encode i

/-- Settles O26: each word's fields are compared with the opcodes. -/
theorem wordsOfTheSpecDecode : Obligations.WordsOfTheSpecDecode :=
  ⟨rfl, rfl, rfl, rfl, rfl, rfl, rfl, rfl, rfl, rfl, rfl, rfl, rfl, rfl, rfl, rfl⟩

/-! ### Steps on words -/

/-- With no word at the port a step waits. -/
theorem step_of_no_word {s : State} (hp : s.port = []) : step s = .next s := by
  rw [step, takeCommand_nil hp, idle]

/-- Settles O28: by the two lemmas on a step with a word at the port, and the gate for an illegal one. -/
theorem stepRunsDecodedCommand : Obligations.StepRunsDecodedCommand := by
  refine ⟨fun s cw rest i hp hd => step_of_decode_ok hp hd, fun s cw rest x hp hx => ?_, fun s => step_of_no_word⟩
  rw [step_of_decode_error hp hx]
  obtain he | ⟨e, he⟩ := s.err.eq_none_or_eq_some
  · exact (execIllegal_of_none (s := { s with port := rest }) he).trans (by rw [he])
  · exact (execIllegal_of_some (s := { s with port := rest }) he).trans (by rw [he])

/-- IllegalCommand is the own error of exactly the terms that are no commands. -/
theorem commandError_eq_illegalCommand {s : State} {i : Instr} :
    commandError s i = some .illegalCommand ↔ i.wf = false := by
  cases i with
  | step | run => obtain h | h | h := summingError_cases (s := s) <;> simp [commandError, h, Instr.wf]
  | get q => simp [commandError, Instr.wf, selectorOperand_isSome]
  | _ => simp [commandError, Instr.wf]

/-- A GET without a selector is executed as an illegal word. -/
theorem execGet_of_no_selector {s : State} {q : Byte} (hq : selectorOperand q = none) :
    execGet q s = execIllegal s := by
  rw [execGet, hq]

/-- Settles O57: such a term is executed as an illegal word, and its own word decodes as one. -/
theorem illFormedTermsActAsIllegalWords : Obligations.IllFormedTermsActAsIllegalWords := by
  refine ⟨fun q hq => ⟨fun cw hd => ?_, fun s rest => ?_⟩, fun s t i he ht => ?_⟩
  · have hwf : q.toNat ≤ 3 := of_decide_eq_true (encode_of_decode hd).2
    omega
  · have hsel : selectorOperand q = none := by
      rw [← Option.not_isSome_iff_eq_none, selectorOperand_isSome, decide_eq_true_iff]
      omega
    obtain ⟨x, hx⟩ := decode_get_word_of_no_selector hq
    rw [← encode_get] at hx
    have hexec (u : State) : exec (.get q) u = execIllegal u := execGet_of_no_selector hsel
    simp only [hexec]
    exact ⟨execIllegal_of_none, fun e => execIllegal_of_some, step_of_decode_error rfl hx⟩
  · rw [err_of_exec he ht, commandError_eq_illegalCommand]

end Sys2Proof
end

section
/-! Bytes of BUF that no command reads (R10): two units that differ only there have the same record, so the
commands answer alike (`SameRecord`), and the response is ERR or a register. -/

namespace Sys2Proof

open Sys2Proof.Machine

/-- STEP at two units with the same record: a block that is left lies within it, so both read the same block. -/
theorem SameRecord.step {s s' : State} (h : SameRecord s s') (hs : StateInv s) (hs' : StateInv s') :
    BothAnswer (exec .step s) (exec .step s') := by
  obtain ⟨⟨m, p, r, rfl⟩, hlen, hrec⟩ := h
  obtain he | ⟨e, he⟩ := s.err.eq_none_or_eq_some
  · obtain hw | ⟨w, hw⟩ := s.w.eq_none_or_eq_some
    · exact ⟨_, _, execStep_of_no_width he hw, execStep_of_no_width he hw, ⟨m, p, _, rfl⟩, hlen, hrec⟩
    · by_cases hl : 8 * s.len % w.bits = 0
      · by_cases hb : s.blk * w.bits = 8 * s.len
        · exact ⟨_, _, execStep_of_all_added he hw hl hb, execStep_of_all_added he hw hl hb,
            ⟨m, p, _, rfl⟩, hlen, hrec⟩
        · obtain ⟨hroom, -⟩ := hs.room hw hl hb
          have hblock : blockAt { s with buf := m, port := p, resp := r } w s.blk = blockAt s w s.blk :=
            blockAt_congr w _ fun a _ ha => by
              obtain ⟨b, hsb, hmb⟩ := hrec a (ha.trans_le hroom)
              exact hmb.trans hsb.symm
          have hstep := StateInv.execStep_of_block_left (s := { s with buf := m, port := p, resp := r })
            he hw hl hs' hb
          simp only [hblock] at hstep
          exact ⟨_, _, StateInv.execStep_of_block_left he hw hl hs hb, hstep, ⟨m, p, _, rfl⟩, hlen, hrec⟩
      · exact ⟨_, _, execStep_of_partial_block he hw hl, execStep_of_partial_block he hw hl,
          ⟨m, p, _, rfl⟩, hlen, hrec⟩
  · exact ⟨_, _, gated_of_some _ he, gated_of_some _ he, ⟨m, p, _, rfl⟩, hlen, hrec⟩

/-- Such units differ by a memory that holds the same bytes below LEN. -/
theorem sameButUnusedBuf_iff {s t : State} : SameButUnusedBuf s t ↔
    ∃ m, t = { s with buf := m } ∧ ∀ a, a < s.len → s.buf.read a = m.read a := by
  constructor
  · rintro ⟨hlen, hw, hacc, hcy, hblk, herr, hmax, hport, hresp, hread⟩
    exact ⟨t.buf, by simp only [hlen, hw, hacc, hcy, hblk, herr, hmax, hport, hresp], hread⟩
  · rintro ⟨m, rfl, hread⟩
    exact ⟨rfl, rfl, rfl, rfl, rfl, rfl, rfl, rfl, rfl, hread⟩

/-- Both units answer, and differ in unused bytes of BUF alone afterwards. -/
def AnswerAlike (o o' : Out) : Prop := ∃ t t', o = .next t ∧ o' = .next t' ∧ SameButUnusedBuf t t'

section Commands

variable {s t : State} (h : SameButUnusedBuf s t)
include h

theorem SameButUnusedBuf.sameRecord (hs : StateInv s) : SameRecord s t := by
  obtain ⟨m, rfl, hread⟩ := sameButUnusedBuf_iff.1 h
  refine ⟨⟨m, s.port, s.resp, rfl⟩, hs.lenBound, fun a ha => ?_⟩
  obtain ⟨b, hb⟩ := Option.isSome_iff_exists.1 (hs.recordWritten a ha)
  exact ⟨b, hb, (hread a ha).symm.trans hb⟩

/-- A command that is no GET answers ERR, which is a register. -/
theorem SameButUnusedBuf.answerAlike {i : Instr} (hi : ∀ q, i ≠ .get q)
    (hb : BothAnswer (exec i s) (exec i t)) : AnswerAlike (exec i s) (exec i t) := by
  obtain ⟨u, u', hu, hu', hrec⟩ := hb
  obtain ⟨hport, hresp⟩ := answersErr_of_exec hi hu
  obtain ⟨hport', hresp'⟩ := answersErr_of_exec hi hu'
  obtain ⟨m, rfl, -⟩ := sameButUnusedBuf_iff.1 h
  obtain ⟨⟨m', p, r, rfl⟩, -, hrec⟩ := hrec
  obtain rfl : p = u.port := hport'.trans hport.symm
  obtain rfl : r = u.resp := hresp'.trans hresp.symm
  refine ⟨u, _, hu, hu', sameButUnusedBuf_iff.2 ⟨m', rfl, fun a ha => ?_⟩⟩
  obtain ⟨b, hb, hb'⟩ := hrec a ha
  exact hb.trans hb'.symm

theorem SameButUnusedBuf.illegal : AnswerAlike (execIllegal s) (execIllegal t) := by
  obtain ⟨m, rfl, hread⟩ := sameButUnusedBuf_iff.1 h
  obtain he | ⟨e, he⟩ := s.err.eq_none_or_eq_some
  · exact ⟨_, _, execIllegal_of_none he, execIllegal_of_none he, sameButUnusedBuf_iff.2 ⟨m, rfl, hread⟩⟩
  · exact ⟨_, _, execIllegal_of_some he, execIllegal_of_some he, sameButUnusedBuf_iff.2 ⟨m, rfl, hread⟩⟩

/-- No selector reads BUF. -/
theorem SameButUnusedBuf.get (q : Byte) : AnswerAlike (execGet q s) (execGet q t) := by
  obtain hq | ⟨sel, hq⟩ := (selectorOperand q).eq_none_or_eq_some
  · rw [execGet_of_no_selector hq, execGet_of_no_selector hq]
    exact h.illegal
  · obtain ⟨m, rfl, hread⟩ := sameButUnusedBuf_iff.1 h
    have hval : readout sel { s with buf := m } = readout sel s := by cases sel <;> rfl
    exact ⟨_, _, execGet_of_selector hq, execGet_of_selector hq,
      sameButUnusedBuf_iff.2 ⟨m, by rw [hval], hread⟩⟩

theorem SameButUnusedBuf.exec (hs : StateInv s) (ht : StateInv t) (i : Instr) :
    AnswerAlike (exec i s) (exec i t) := by
  have hrec := h.sameRecord hs
  cases i with
  | rst =>
    obtain ⟨m, rfl, -⟩ := sameButUnusedBuf_iff.1 h
    exact h.answerAlike nofun (bothAnswer_rst rfl)
  | cfg w => exact h.answerAlike nofun (hrec.cfg w)
  | push b => exact h.answerAlike nofun (hrec.push b)
  | step => exact h.answerAlike nofun (hrec.step hs ht)
  | run => exact h.answerAlike nofun hrec.run
  | get q => exact h.get q

theorem SameButUnusedBuf.step (hs : StateInv s) (ht : StateInv t) : AnswerAlike (step s) (step t) := by
  obtain ⟨m, rfl, hread⟩ := sameButUnusedBuf_iff.1 h
  have htaken (rest : List CmdWord) : SameButUnusedBuf { s with port := rest }
      { s with buf := m, port := rest } := sameButUnusedBuf_iff.2 ⟨m, rfl, hread⟩
  obtain ⟨hp, hx⟩ | ⟨cw, rest, i, hp, hd, hx⟩ | ⟨cw, rest, x, hp, hd, hx⟩ := step_cases s
  · exact ⟨_, _, hx, step_of_no_word hp, h⟩
  · rw [hx, step_of_decode_ok (s := { s with buf := m }) hp hd]
    exact (htaken rest).exec (hs.with_err_port_resp _ rest _) (ht.with_err_port_resp _ rest _) i
  · rw [hx, step_of_decode_error (s := { s with buf := m }) hp hd]
    exact (htaken rest).illegal

end Commands

/-- Settles O8: the two units take the same word and answer it alike. -/
theorem unusedBufUnobservable : Obligations.UnusedBufUnobservable := by
  intro s t s' hs ht h hstep
  obtain ⟨u, u', hu, hu', hsame⟩ := h.step hs ht
  cases hu.symm.trans hstep
  exact ⟨u', hu', hsame⟩

end Sys2Proof
end

section
/-! STEPs after a computation in progress (R102), the host's test of STATUS (R78), and the zero block (R101). -/

namespace Sys2Proof

open Sys2Proof.Machine

/-! ### STEPs from the middle of a computation -/

/-- Where the partial sum holds, the blocks counted by BLK are the ones added. -/
theorem PartialSum.blocksAdded_blk {s : State} {w : BlockWidth} (h : PartialSum s) (hw : s.w = some w) :
    blocksAdded s w s.blk = { s with resp := some 0 } := by
  obtain ⟨hacc, hcy⟩ := Prod.mk.inj (h w hw)
  rw [blocksAdded, ← hcy, ← hacc, BitVec.ofNat_toNat, BitVec.setWidth_eq]

theorem done_of_all_added {s : State} {w : BlockWidth} (hw : s.w = some w)
    (hb : s.blk * w.bits = 8 * s.len) : done s = true :=
  (done_iff hw).2 hb

section Continued

variable {s : State} {w : BlockWidth} (h : StateInv s) (hp : PartialSum s) (he : s.err = none)
  (hw : s.w = some w) (hl : 8 * s.len % w.bits = 0)
include h hp he hw hl

theorem PartialSum.execStep_of_block_left (hlt : s.blk < numBlocks s w) :
    execStep s = .next (blocksAdded s w (s.blk + 1)) := by
  have hleft : s.blk * w.bits ≠ 8 * s.len := by
    rw [← numBlocks_mul hl]
    exact (Nat.mul_lt_mul_of_pos_right hlt w.bits_pos).ne
  have hstep := StateInv.execStep_of_block_left he hw hl h hleft
  have hsum := hp.addEAC_block hw
  rw [Nat.mod_eq_of_lt (h.accFits w hw)] at hsum
  rw [hstep, hsum]
  rfl

/-- k STEPs add the next k blocks; the response is that of the last of them. -/
theorem PartialSum.execAll_steps (k : Nat) (hk : s.blk + k ≤ numBlocks s w) :
    ∃ r, execAll (List.replicate k .step) s = .next { blocksAdded s w (s.blk + k) with resp := r } := by
  cases k with
  | zero =>
    refine ⟨s.resp, ?_⟩
    rw [Nat.add_zero, hp.blocksAdded_blk hw]
    rfl
  | succ k =>
    have hstep : exec .step s = .next (blocksAdded s w (s.blk + 1)) :=
      hp.execStep_of_block_left h he hw hl (by omega)
    have hrest := Sys2Proof.execAll_steps h he hw hl (n := s.blk + 1) k (by omega)
    refine ⟨some 0, ?_⟩
    rw [List.replicate_succ, execAll_cons_of_next hstep, hrest, Nat.succ_add_eq_add_succ]
    rfl

end Continued

/-- Settles O40: the remaining STEPs and RUN both leave all NBLK blocks added. -/
theorem stepsContinueToRun : Obligations.StepsContinueToRun := by
  intro s w h hp he hw hl
  have hk : s.blk + (8 * s.len / w.bits - s.blk) = numBlocks s w :=
    Nat.add_sub_of_le (h.blk_le_numBlocks hw)
  obtain ⟨r, hsteps⟩ := hp.execAll_steps h he hw hl _ hk.le
  rw [hk] at hsteps
  exact ⟨_, _, StateInv.execRun_of_whole he hw hl h, hsteps, rfl, rfl, rfl,
    done_of_all_added hw (numBlocks_mul hl)⟩

/-! ### The host's test -/

/-- The mask 0x17 keeps DONE and ERR. -/
theorem statusWord_and_mask (s : State) :
    statusWord s &&& 0x17 = (0#27 ++ BitVec.ofBool (done s) ++ 0#1 ++ errField s.err : BitVec 32) := by
  have hmask : (0x17 : BitVec 32) =
      0#18 ++ 0#6 ++ 0#3 ++ BitVec.allOnes 1 ++ 0#1 ++ BitVec.allOnes 3 := rfl
  rw [hmask, statusWord]
  iterate 5 rw [BitVec.and_append]
  simp only [BitVec.and_allOnes, BitVec.and_zero]
  rfl

theorem hostTest_iff (s : State) : hostTest s = true ↔ s.err = none ∧ done s = true := by
  rw [hostTest, statusWord_and_mask]
  rcases s.err with - | (_ | _ | _ | _) <;> cases done s <;> decide

/-- Blocks that fill the record are all its blocks. -/
theorem whole_of_done {s : State} {w : BlockWidth} (hw : s.w = some w) (hd : done s = true) :
    8 * s.len % w.bits = 0 ∧ s.blk = numBlocks s w := by
  have hfull : s.blk * w.bits = 8 * s.len := (done_iff hw).1 hd
  exact ⟨hfull ▸ Nat.mul_mod_left .., (Nat.div_eq_of_eq_mul_left w.bits_pos hfull.symm).symm⟩

/-- GET SUM answers the partial sum (R78). -/
theorem PartialSum.exec_get_sum {s : State} {w : BlockWidth} (h : PartialSum s) (hw : s.w = some w) :
    exec (.get 0) s = .next { s with resp := some (BitVec.ofNat 32 (sumBlocks s w s.blk).1) } := by
  obtain ⟨hacc, -⟩ := Prod.mk.inj (h w hw)
  refine exec_get_of_readout (sel := .sum) rfl ?_
  rw [← hacc, BitVec.ofNat_toNat, BitVec.setWidth_eq]
  rfl

theorem two_pow_bits_le (w : BlockWidth) : 2 ^ w.bits ≤ 2 ^ 32 := by
  cases w <;> decide

/-- Settles O46: with DONE = 1 the first BLK blocks are all of the record, and their sum is the source's. -/
theorem hostTestMeansChecksum : Obligations.HostTestMeansChecksum := by
  refine ⟨hostTest_iff, fun s w _ hp hw htest => ?_, fun s w hp hw => hp.exec_get_sum hw⟩
  obtain ⟨hl, hblk⟩ := whole_of_done hw ((hostTest_iff s).1 htest).2
  refine ⟨_, hp.exec_get_sum hw, ?_, ?_⟩ <;> rw [sourceSum_inputRecord hl]
  · rw [← hblk]
  · exact (sumBlocks_fst_lt ..).trans_le (two_pow_bits_le w)

/-! ### A zero block at width 8 -/

/-- At W = 8 a block is a byte (R59). -/
theorem blockAt_w8 (s : State) (k : Nat) : blockAt s .w8 k = (byteAt s k).toNat := by
  have hbytes : BlockWidth.w8.bytes = 1 := rfl
  rw [blockAt_eq_memRead, hbytes, Nat.mul_one, memRead_one]

theorem StateInv.pushedByte_keeps {s : State} (h : StateInv s) (b : Byte) (hlt : s.len < s.maxBytes) :
    StateInv (pushedByte s b) :=
  (h.with_pushed b hlt).with_err_port_resp _ _ _

/-- Settles O47: the byte pushed is the next block, so STEP adds 0 and the carry. -/
theorem zeroBlockFoldsCarry : Obligations.ZeroBlockFoldsCarry := by
  intro s h he hw hd hlt
  have hfull : s.blk * 8 = 8 * s.len := (done_iff hw).1 hd
  have hend : s.blk = s.len := by omega
  have hcy := s.cy.toNat_le
  have hacc : s.acc.toNat < 2 ^ 8 := h.accFits .w8 hw
  have hpush : exec (.push 0) s = .next (pushedByte s 0) := execPush_of_room 0 he hlt
  have hleft : s.blk * 8 ≠ 8 * (s.len + 1) := by omega
  have hbyte : blockAt (pushedByte s 0) .w8 (pushedByte s 0).blk = 0 := by
    rw [blockAt_w8, byteAt, show (pushedByte s 0).blk = s.len from hend, pushedByte, Memory.read_write_same]
    rfl
  have hstep := StateInv.execStep_of_block_left (s := pushedByte s 0) (w := .w8) he hw
    (Nat.mul_mod_right 8 _) (h.pushedByte_keeps 0 hlt) hleft
  rw [hbyte] at hstep
  refine ⟨_, (execAll_cons_of_next hpush).trans (execAll_cons_of_next hstep), ?_, ?_, rfl, ?_⟩
  · exact toNat_ofNat_of_fits (w := .w8) (addEAC_fst_lt ..)
  · exact (addEAC_snd s.cy hacc (Nat.two_pow_pos 8)).trans (decide_eq_decide.2 (by omega))
  · exact done_of_all_added hw (show (s.blk + 1) * 8 = 8 * (s.len + 1) by omega)

end Sys2Proof
end

section
/-! The host's duties: padding (R97), a list of bytes pushed (R27, R103), and the whole protocol (R98). -/

namespace Sys2Proof

open Sys2Proof.Machine

/-! ### Padding -/

section Padding

variable (n : Nat) (w : BlockWidth)

theorem padCount_lt : padCount n w < w.bytes := Nat.mod_lt _ w.bytes_pos

theorem add_padCount_mod : (n + padCount n w) % w.bytes = 0 := by
  rw [padCount]
  obtain ⟨-, hb⟩ | ⟨-, hb⟩ | ⟨-, hb⟩ := BlockWidth.cases_bits w <;> rw [hb] <;> omega

variable {n w}

theorem padCount_of_whole (h : n % w.bytes = 0) : padCount n w = 0 := by
  rw [padCount, h, Nat.sub_zero, Nat.mod_self]

theorem length_padded (line : List Byte) (w : BlockWidth) :
    (padded line w).length = line.length + padCount line.length w := by
  rw [padded, List.length_append, List.length_replicate]

theorem padded_of_whole {line : List Byte} (h : line.length % w.bytes = 0) : padded line w = line := by
  rw [padded, padCount_of_whole h, List.replicate_zero, List.append_nil]

end Padding

/-- Settles O55: fewer bytes are added than a block has, and a whole number of blocks needs none. -/
theorem paddingMakesWholeBlocks : Obligations.PaddingMakesWholeBlocks := by
  refine ⟨fun n w => ⟨add_padCount_mod n w, padCount_lt n w, padCount_of_whole (add_padCount_mod n w)⟩,
    fun n => ⟨Nat.lt_one_iff.1 (padCount_lt n .w8), Nat.le_of_lt_succ (padCount_lt n .w16),
      Nat.le_of_lt_succ (padCount_lt n .w32)⟩,
    fun line w => ⟨length_padded line w, padded_of_whole ?_⟩⟩
  rw [length_padded]
  exact add_padCount_mod ..

/-! ### Pushing a list of bytes -/

/-- Every byte of the record holds a value. -/
def RecordWritten (s : State) : Prop := ∀ a, a < s.len → (s.buf.read a).isSome = true

/-- `t` is `s` with the bytes appended to its record and no register changed but LEN. -/
structure Appended (s : State) (bytes : List Byte) (t : State) : Prop where
  len : t.len = s.len + bytes.length
  w : t.w = s.w
  acc : t.acc = s.acc
  cy : t.cy = s.cy
  blk : t.blk = s.blk
  err : t.err = s.err
  maxBytes : t.maxBytes = s.maxBytes
  record : inputRecord t = inputRecord s ++ bytes
  written : RecordWritten s → RecordWritten t

theorem appended_nil (s : State) : Appended s [] s :=
  ⟨rfl, rfl, rfl, rfl, rfl, rfl, rfl, (List.append_nil _).symm, id⟩

theorem inputRecord_pushedByte (s : State) (b : Byte) :
    inputRecord (pushedByte s b) = inputRecord s ++ [b] := by
  have hold : ∀ a ∈ List.range s.len, byteAt (pushedByte s b) a = byteAt s a := fun a ha =>
    congrArg (Option.getD · 0) (Memory.read_write_other _ b (List.mem_range.1 ha).ne)
  have hnew : byteAt (pushedByte s b) s.len = b :=
    congrArg (Option.getD · 0) (Memory.read_write_same ..)
  rw [inputRecord, show (pushedByte s b).len = s.len + 1 from rfl, List.range_succ, List.map_append,
    List.map_congr_left hold, List.map_singleton, hnew, inputRecord]

theorem RecordWritten.pushedByte {s : State} (h : RecordWritten s) (b : Byte) :
    RecordWritten (pushedByte s b) := by
  intro a ha
  change ((s.buf.write s.len b).read a).isSome = true
  obtain rfl | hne := eq_or_ne a s.len
  · rw [Memory.read_write_same, Option.isSome_some]
  · rw [Memory.read_write_other _ b hne]
    exact h a (Nat.lt_of_le_of_ne (Nat.le_of_lt_succ ha) hne)

theorem Appended.cons {s t : State} {b : Byte} {bytes : List Byte} (h : Appended (pushedByte s b) bytes t) :
    Appended s (b :: bytes) t where
  len := h.len.trans (Nat.succ_add_eq_add_succ ..)
  w := h.w
  acc := h.acc
  cy := h.cy
  blk := h.blk
  err := h.err
  maxBytes := h.maxBytes
  record := by rw [h.record, inputRecord_pushedByte, List.append_assoc, List.singleton_append]
  written hs := h.written (hs.pushedByte b)

/-- A list of bytes that fits is appended (R27). -/
theorem execAll_pushes (bytes : List Byte) {s : State} (he : s.err = none)
    (hfit : s.len + bytes.length ≤ s.maxBytes) :
    ∃ t, execAll (expandPushs bytes) s = .next t ∧ Appended s bytes t := by
  induction bytes generalizing s with
  | nil => exact ⟨s, rfl, appended_nil s⟩
  | cons b bytes ih =>
    rw [List.length_cons] at hfit
    have hpush : exec (.push b) s = .next (pushedByte s b) := execPush_of_room b he (by omega)
    obtain ⟨t, ht, happ⟩ := ih (s := pushedByte s b) he (by simp only [pushedByte]; omega)
    exact ⟨t, (execAll_cons_of_next hpush).trans ht, happ.cons⟩

/-- Behind the gate PUSHes change the response alone. -/
theorem execAll_pushes_latched (bytes : List Byte) {s : State} {e : ErrorKind} (he : s.err = some e) :
    ∃ r, execAll (expandPushs bytes) s = .next { s with resp := r } := by
  induction bytes generalizing s with
  | nil => exact ⟨s.resp, rfl⟩
  | cons b bytes ih =>
    have hpush : exec (.push b) s = _ := gated_of_some _ he
    obtain ⟨r, hr⟩ := ih (s := { s with resp := some (errWord (some e)) }) he
    exact ⟨r, (execAll_cons_of_next hpush).trans hr⟩

/-- Settles O16: what `Appended` says. -/
theorem pushesAppendInOrder : Obligations.PushesAppendInOrder := by
  intro bytes s he hfit
  obtain ⟨t, ht, happ⟩ := execAll_pushes bytes he hfit
  exact ⟨t, ht, happ.record, happ.len, happ.w, happ.acc, happ.cy, happ.blk, happ.err.trans he⟩

/-- Bytes that just fill the buffer are appended, one more meets it full, and the gate shuts out the rest. -/
theorem execAll_pushes_overflow (fits : List Byte) (b : Byte) (rest : List Byte) {s : State}
    (he : s.err = none) (hfill : s.len + fits.length = s.maxBytes) :
    ∃ t, execAll (expandPushs (fits ++ b :: rest)) s = .next t ∧ t.err = some .bufferOverflow ∧
      t.len = s.maxBytes ∧ inputRecord t = inputRecord s ++ fits := by
  obtain ⟨t, ht, happ⟩ := execAll_pushes fits he hfill.le
  have hfull : t.len = t.maxBytes := by rw [happ.len, happ.maxBytes, hfill]
  have hpush : exec (.push b) t = _ := execPush_of_full b (happ.err.trans he) hfull
  obtain ⟨r, hrest⟩ := execAll_pushes_latched rest
    (s := { t with err := some .bufferOverflow, resp := some 4 }) rfl
  have hall : execAll (expandPushs (fits ++ b :: rest)) s = execAll (expandPushs (b :: rest)) t := by
    rw [expandPushs, List.map_append]
    exact execAll_append_of_next ht
  exact ⟨_, hall.trans ((execAll_cons_of_next hpush).trans hrest), rfl, happ.len.trans hfill, happ.record⟩

/-- Settles O17: the list is cut where the buffer is full, and a byte is left. -/
theorem tooLongLineOverflows : Obligations.TooLongLineOverflows := by
  intro bytes s he hle hlong
  have hroom : s.maxBytes - s.len < bytes.length := by omega
  have hfill : s.len + (bytes.take (s.maxBytes - s.len)).length = s.maxBytes := by
    rw [List.length_take]
    omega
  have hover := execAll_pushes_overflow (bytes.take (s.maxBytes - s.len)) bytes[s.maxBytes - s.len]
    (bytes.drop (s.maxBytes - s.len + 1)) he hfill
  rwa [← List.drop_eq_getElem_cons hroom, List.take_append_drop] at hover

/-! ### The host's protocol -/

/-- `s` after RST and CFG: an empty record, the width, and nothing added. -/
def started (s : State) (w : BlockWidth) : State := { clearAll s with w := some w, resp := some 0 }

theorem execAll_rst_cfg (s : State) (w : BlockWidth) (is : List Instr) :
    execAll (.rst :: .cfg (cfgOperand w) :: is) s = execAll is (started s w) := by
  have hrst : exec .rst s = .next (respondErr (clearAll s)) := rfl
  have hcfg : exec (.cfg (cfgOperand w)) (respondErr (clearAll s)) = .next (started s w) :=
    execCfg_of_width rfl (widthOperand_cfgOperand w)
  rw [execAll_cons_of_next hrst, execAll_cons_of_next hcfg]

/-- The padded line is a whole number of blocks in bits too. -/
theorem bits_padded_mod (line : List Byte) (w : BlockWidth) : 8 * (padded line w).length % w.bits = 0 := by
  rw [w.bits_eq, Nat.mul_mod_mul_left, length_padded, add_padCount_mod]

/-- Settles O56: the PUSHes leave the padded line as the record, of which RUN computes the checksum. -/
theorem hostProtocolGivesChecksum : Obligations.HostProtocolGivesChecksum := by
  intro s w line hfit hmax
  obtain ⟨u, hu, happ⟩ := execAll_pushes (padded line w) (s := started s w) rfl
    ((Nat.zero_add _).trans_le hfit)
  have hlen : u.len = (padded line w).length := happ.len.trans (Nat.zero_add _)
  have hcap : u.maxBytes = s.maxBytes := happ.maxBytes
  have hrecord : inputRecord u = padded line w := happ.record
  have hread : checkRead u 0 u.len = none := by
    rw [checkRead_eq_none, Nat.zero_add, hcap]
    simpa only [Nat.zero_add] using ⟨hlen.trans_le hfit, happ.written nofun⟩
  have hl : 8 * u.len % w.bits = 0 := hlen ▸ bits_padded_mod line w
  have hrun : exec .run u = .next (blocksAdded u w (numBlocks u w)) :=
    execRun_of_readable happ.err happ.w hl hread
  refine ⟨blocksAdded u w (numBlocks u w), ?_, rfl, ?_, hrecord, ?_, ?_⟩
  · rw [hostProtocol, execAll_rst_cfg]
    exact (execAll_append_of_next hu).trans (execAll_cons_of_next hrun)
  · exact (hostTest_iff _).2 ⟨happ.err, done_of_all_added happ.w (numBlocks_mul hl)⟩
  · rw [← hrecord, sourceSum_inputRecord hl]
    exact blocksAdded_acc_toNat ..
  · have hfits : u.len < 2 ^ 32 := by omega
    exact (Nat.mod_eq_of_lt hfits).trans hlen

end Sys2Proof
end
